-- ==== Sys2Proof/Word.lean ====
section
/-! DEFINITION. The word types of the gob-8 block and their plainest arithmetic (spec/00_scope.md R5, R7). -/

namespace Sys2Proof

/-- An 8-bit cell: a general register, a byte of program memory, a framebuffer cell (R5, R31). -/
abbrev Byte := BitVec 8

/-- A 16-bit word: an instruction, the program counter, the pointer, the stack pointer (R5). -/
abbrev Word := BitVec 16

/-- A 12-bit address field `nnn` of an instruction (R9, R72). -/
abbrev Addr := BitVec 12

/-- A register number 0..15 (R20, R21). -/
abbrev Reg := Fin 16

/-- Register 15, the flags register (R22). -/
abbrev flagReg : Reg := 15

end Sys2Proof
end

