-- ==== Sys2Proof/Syntax.lean ====
section
/-! DEFINITION. The instructions of the block, one constructor per row of spec/opcode_table.json (spec/30_encoding.md
R71, R73). Operand fields are those of R9: `x` and `y` register numbers, `kk` a byte, `nnn` a 12-bit address, `n` a
nibble. Bits that an instruction's word holds but its meaning does not read (NOP0's `nnn`, SE_REG's `n`, the `y` of ROR
and ROL) stay in the constructor, so that each word has one instruction and each instruction one word (log entry 10). -/

namespace Sys2Proof

inductive Instr where
  /-- 0x00E0, clear the work framebuffer (R121). -/
  | cls
  /-- 0x00E1, halt (R103). -/
  | hlt
  /-- 0x00E2, exchange front and work (R122). -/
  | swap
  /-- 0x00EE, return from subroutine (R123). -/
  | ret
  /-- 0x0nnn, any other family-0 word: no operation (R120). -/
  | nop0 (nnn : Addr)
  /-- 0x1nnn, jump (R124). -/
  | jp (nnn : Addr)
  /-- 0x2nnn, call (R125). -/
  | call (nnn : Addr)
  /-- 0x3xkk, skip if Vx = kk (R140). -/
  | seImm (x : Reg) (kk : Byte)
  /-- 0x4xkk, skip if Vx differs from kk (R141). -/
  | sneImm (x : Reg) (kk : Byte)
  /-- 0x5xyn, skip if Vx = Vy; `n` is not decoded (R142). -/
  | seReg (x y : Reg) (n : Fin 16)
  /-- 0x6xkk, load immediate (R150). -/
  | ldImm (x : Reg) (kk : Byte)
  /-- 0x7xkk, add immediate without flags (R151). -/
  | addImm (x : Reg) (kk : Byte)
  /-- 0x8xy0, copy (R153). -/
  | mov (x y : Reg)
  /-- 0x8xy1, bitwise or (R154). -/
  | or (x y : Reg)
  /-- 0x8xy2, bitwise and (R155). -/
  | and (x y : Reg)
  /-- 0x8xy3, bitwise exclusive or (R156). -/
  | xor (x y : Reg)
  /-- 0x8xy4, add with flags (R157). -/
  | add (x y : Reg)
  /-- 0x8xy5, Vx - Vy with flags (R158). -/
  | sub (x y : Reg)
  /-- 0x8xy6, rotate Vx right; `y` is not read (R159). -/
  | ror (x y : Reg)
  /-- 0x8xy7, Vy - Vx with flags (R160). -/
  | rsub (x y : Reg)
  /-- 0x8xyE, rotate Vx left; `y` is not read (R161). -/
  | rol (x y : Reg)
  /-- 0xAnnn, set the pointer (R180). -/
  | ldI (nnn : Addr)
  /-- 0xBnnn, indexed jump (R126). -/
  | jpV0 (nnn : Addr)
  /-- 0xCxkk, random byte under a mask (R162). -/
  | rnd (x : Reg) (kk : Byte)
  /-- 0xDxyn, draw a sprite of n + 1 rows (R181). -/
  | drw (x y : Reg) (n : Fin 16)
  /-- 0xEx9E, skip if key Vx is pressed (R200). -/
  | skp (x : Reg)
  /-- 0xExA1, skip if key Vx is not pressed (R201). -/
  | sknp (x : Reg)
  /-- 0xFx07, reserved no-operation (R203). -/
  | getTimer (x : Reg)
  /-- 0xFx0A, await a key into Vx (R202). -/
  | waitkey (x : Reg)
  /-- 0xFx15, reserved no-operation (R203). -/
  | setTimer (x : Reg)
  /-- 0xFx18, reserved no-operation (R203). -/
  | setAudio (x : Reg)
  /-- 0xFx1E, add Vx to the pointer (R204). -/
  | addI (x : Reg)
deriving DecidableEq, Repr

end Sys2Proof
end

