-- ==== Sys2Proof/WellFormed.lean ====
section
/-! DEFINITION. Which terms of Instr stand for a word of the ISA. Every operand's range is a plain fact of its type;
the one further condition is R120's: the family-0 no-operation is every family-0 word EXCEPT the four that R73 gives to
CLS, HLT, SWAP and RET. -/

namespace Sys2Proof

/-- The low 12 bits of CLS, HLT, SWAP and RET (R73, R74), which no NOP0 has. -/
def reservedControl : List Addr := [0x0E0, 0x0E1, 0x0E2, 0x0EE]

def Instr.wf : Instr → Bool
  | .nop0 nnn => !reservedControl.contains nnn
  | .cls | .hlt | .swap | .ret => true
  | .jp _ | .call _ | .ldI _ | .jpV0 _ => true
  | .seImm _ _ | .sneImm _ _ | .ldImm _ _ | .addImm _ _ | .rnd _ _ => true
  | .seReg _ _ _ | .drw _ _ _ => true
  | .mov _ _ | .or _ _ | .and _ _ | .xor _ _ | .add _ _ | .sub _ _ => true
  | .ror _ _ | .rsub _ _ | .rol _ _ => true
  | .skp _ | .sknp _ | .getTimer _ | .waitkey _ | .setTimer _ | .setAudio _ | .addI _ => true

end Sys2Proof
end

