-- ==== Sys2Proof/Decode.lean ====
section
/-! DEFINITION. Decoding a word (spec/30_encoding.md R71 to R76, spec/40_fetch_decode.md R105) and, after it, encoding
an instruction from the same tables. Decoding is total: it gives an instruction or rejects by name. -/

namespace Sys2Proof

/-! ## Fields (R9, R72) -/

/-- `F`, bits 15:12: the family. -/
def fieldF (w : Word) : BitVec 4 := w.extractLsb' 12 4

/-- `x`, bits 11:8. -/
def fieldX (w : Word) : Reg := (w.extractLsb' 8 4).toFin

/-- `y`, bits 7:4. -/
def fieldY (w : Word) : Reg := (w.extractLsb' 4 4).toFin

/-- `n`, bits 3:0. -/
def fieldN (w : Word) : BitVec 4 := w.extractLsb' 0 4

/-- `kk` (and the sub-operation `s` of families E and F), bits 7:0. -/
def fieldKK (w : Word) : Byte := w.extractLsb' 0 8

/-- `nnn`, bits 11:0. -/
def fieldNNN (w : Word) : Addr := w.extractLsb' 0 12

/-! ## Decode -/

/-- Why a byte sequence is no instruction. -/
inductive DecodeError where
  /-- Fewer than the two bytes a word has (R70). -/
  | truncated
  /-- A word of family 9 (R76). -/
  | undefinedFamily9 (w : Word)
  /-- A family-8 word whose low nibble selects nothing (R76). -/
  | undefinedAluOp (w : Word)
  /-- A family-E word whose low byte selects nothing (R76). -/
  | undefinedKeyOp (w : Word)
  /-- A family-F word whose low byte selects nothing (R76). -/
  | undefinedSpecialOp (w : Word)
deriving DecidableEq, Repr

/-- Family 0 (R74, R120): four literals, and every other word the no-operation. -/
def decodeControl (w : Word) : Instr :=
  if fieldNNN w = 0x0E0 then .cls
  else if fieldNNN w = 0x0E1 then .hlt
  else if fieldNNN w = 0x0E2 then .swap
  else if fieldNNN w = 0x0EE then .ret
  else .nop0 (fieldNNN w)

/-- Family 8 (R73, D7; UNVERIFIED, log entry 13): selected by `n`. -/
def decodeAlu (w : Word) : Except DecodeError Instr :=
  match fieldN w with
  | 0x0#4 => .ok (.mov (fieldX w) (fieldY w))
  | 0x1#4 => .ok (.or (fieldX w) (fieldY w))
  | 0x2#4 => .ok (.and (fieldX w) (fieldY w))
  | 0x3#4 => .ok (.xor (fieldX w) (fieldY w))
  | 0x4#4 => .ok (.add (fieldX w) (fieldY w))
  | 0x5#4 => .ok (.sub (fieldX w) (fieldY w))
  | 0x6#4 => .ok (.ror (fieldX w) (fieldY w))
  | 0x7#4 => .ok (.rsub (fieldX w) (fieldY w))
  | 0xE#4 => .ok (.rol (fieldX w) (fieldY w))
  | _ => .error (.undefinedAluOp w)

/-- Family E (R73, D10; UNVERIFIED, log entry 13): selected by the low byte. -/
def decodeKey (w : Word) : Except DecodeError Instr :=
  match fieldKK w with
  | 0x9E#8 => .ok (.skp (fieldX w))
  | 0xA1#8 => .ok (.sknp (fieldX w))
  | _ => .error (.undefinedKeyOp w)

/-- Family F (R73, D10; UNVERIFIED, log entry 13): selected by the low byte. -/
def decodeSpecial (w : Word) : Except DecodeError Instr :=
  match fieldKK w with
  | 0x07#8 => .ok (.getTimer (fieldX w))
  | 0x0A#8 => .ok (.waitkey (fieldX w))
  | 0x15#8 => .ok (.setTimer (fieldX w))
  | 0x18#8 => .ok (.setAudio (fieldX w))
  | 0x1E#8 => .ok (.addI (fieldX w))
  | _ => .error (.undefinedSpecialOp w)

/-- The dispatch of R105 on the family. (Families 0 to 8 and A to F are listed, so the last arm is family 9.
The meanings of families 3, 4 and 5 are D9's: UNVERIFIED, log entry 13.) -/
def decodeWord (w : Word) : Except DecodeError Instr :=
  match fieldF w with
  | 0x0#4 => .ok (decodeControl w)
  | 0x1#4 => .ok (.jp (fieldNNN w))
  | 0x2#4 => .ok (.call (fieldNNN w))
  | 0x3#4 => .ok (.seImm (fieldX w) (fieldKK w))
  | 0x4#4 => .ok (.sneImm (fieldX w) (fieldKK w))
  | 0x5#4 => .ok (.seReg (fieldX w) (fieldY w) (fieldN w).toFin)
  | 0x6#4 => .ok (.ldImm (fieldX w) (fieldKK w))
  | 0x7#4 => .ok (.addImm (fieldX w) (fieldKK w))
  | 0x8#4 => decodeAlu w
  | 0xA#4 => .ok (.ldI (fieldNNN w))
  | 0xB#4 => .ok (.jpV0 (fieldNNN w))
  | 0xC#4 => .ok (.rnd (fieldX w) (fieldKK w))
  | 0xD#4 => .ok (.drw (fieldX w) (fieldY w) (fieldN w).toFin)
  | 0xE#4 => decodeKey w
  | 0xF#4 => decodeSpecial w
  | _ => .error (.undefinedFamily9 w)

/-- Two bytes in memory order as a big-endian word (R51, R70, R101). -/
def wordOfBytes (hi lo : Byte) : Word := hi ++ lo

/-- Decode the instruction at the head of a byte sequence and give the bytes after it. -/
def decode : List Byte → Except DecodeError (Instr × List Byte)
  | hi :: lo :: rest => (decodeWord (wordOfBytes hi lo)).map fun i => (i, rest)
  | _ => .error .truncated

/-! ## Encode -/

/-- A 4-bit field holding a register number or a nibble operand. -/
def nib (x : Fin 16) : BitVec 4 := BitVec.ofFin x

/-- Formats FIX and A (R71): family, then 12 bits. -/
def formatA (f : BitVec 4) (nnn : Addr) : Word := f ++ nnn

/-- Formats XK and XS (R71): family, register, byte. -/
def formatXK (f : BitVec 4) (x : Reg) (kk : Byte) : Word := f ++ nib x ++ kk

/-- Format XY (R71): family, two registers, nibble. -/
def formatXY (f : BitVec 4) (x y : Reg) (n : BitVec 4) : Word := f ++ nib x ++ nib y ++ n

/-- The word of an instruction, by the map of R73. -/
def encode : Instr → Word
  | .cls => formatA 0x0 0x0E0
  | .hlt => formatA 0x0 0x0E1
  | .swap => formatA 0x0 0x0E2
  | .ret => formatA 0x0 0x0EE
  | .nop0 nnn => formatA 0x0 nnn
  | .jp nnn => formatA 0x1 nnn
  | .call nnn => formatA 0x2 nnn
  | .seImm x kk => formatXK 0x3 x kk
  | .sneImm x kk => formatXK 0x4 x kk
  | .seReg x y n => formatXY 0x5 x y (nib n)
  | .ldImm x kk => formatXK 0x6 x kk
  | .addImm x kk => formatXK 0x7 x kk
  | .mov x y => formatXY 0x8 x y 0x0
  | .or x y => formatXY 0x8 x y 0x1
  | .and x y => formatXY 0x8 x y 0x2
  | .xor x y => formatXY 0x8 x y 0x3
  | .add x y => formatXY 0x8 x y 0x4
  | .sub x y => formatXY 0x8 x y 0x5
  | .ror x y => formatXY 0x8 x y 0x6
  | .rsub x y => formatXY 0x8 x y 0x7
  | .rol x y => formatXY 0x8 x y 0xE
  | .ldI nnn => formatA 0xA nnn
  | .jpV0 nnn => formatA 0xB nnn
  | .rnd x kk => formatXK 0xC x kk
  | .drw x y n => formatXY 0xD x y (nib n)
  | .skp x => formatXK 0xE x 0x9E
  | .sknp x => formatXK 0xE x 0xA1
  | .getTimer x => formatXK 0xF x 0x07
  | .waitkey x => formatXK 0xF x 0x0A
  | .setTimer x => formatXK 0xF x 0x15
  | .setAudio x => formatXK 0xF x 0x18
  | .addI x => formatXK 0xF x 0x1E

/-- The high and the low byte of a word, in memory order (R51). -/
def bytesOfWord (w : Word) : List Byte := [w.extractLsb' 8 8, w.extractLsb' 0 8]

/-- The two bytes of an instruction as memory holds them. -/
def encodeBytes (i : Instr) : List Byte := bytesOfWord (encode i)

/-! ## The opcode table -/

/-- One row's pattern in spec/opcode_table.json: a word w is of the row when w AND mask = match. -/
structure OpcodePattern where
  mask : Word
  pattern : Word
deriving DecidableEq, Repr

/-- The row of spec/opcode_table.json each constructor stands for: its "mask" and "match", copied. -/
def Instr.row : Instr → OpcodePattern
  | .cls => ⟨0xFFFF, 0x00E0⟩
  | .hlt => ⟨0xFFFF, 0x00E1⟩
  | .swap => ⟨0xFFFF, 0x00E2⟩
  | .ret => ⟨0xFFFF, 0x00EE⟩
  | .nop0 _ => ⟨0xF000, 0x0000⟩
  | .jp _ => ⟨0xF000, 0x1000⟩
  | .call _ => ⟨0xF000, 0x2000⟩
  | .seImm _ _ => ⟨0xF000, 0x3000⟩
  | .sneImm _ _ => ⟨0xF000, 0x4000⟩
  | .seReg _ _ _ => ⟨0xF000, 0x5000⟩
  | .ldImm _ _ => ⟨0xF000, 0x6000⟩
  | .addImm _ _ => ⟨0xF000, 0x7000⟩
  | .mov _ _ => ⟨0xF00F, 0x8000⟩
  | .or _ _ => ⟨0xF00F, 0x8001⟩
  | .and _ _ => ⟨0xF00F, 0x8002⟩
  | .xor _ _ => ⟨0xF00F, 0x8003⟩
  | .add _ _ => ⟨0xF00F, 0x8004⟩
  | .sub _ _ => ⟨0xF00F, 0x8005⟩
  | .ror _ _ => ⟨0xF00F, 0x8006⟩
  | .rsub _ _ => ⟨0xF00F, 0x8007⟩
  | .rol _ _ => ⟨0xF00F, 0x800E⟩
  | .ldI _ => ⟨0xF000, 0xA000⟩
  | .jpV0 _ => ⟨0xF000, 0xB000⟩
  | .rnd _ _ => ⟨0xF000, 0xC000⟩
  | .drw _ _ _ => ⟨0xF000, 0xD000⟩
  | .skp _ => ⟨0xF0FF, 0xE09E⟩
  | .sknp _ => ⟨0xF0FF, 0xE0A1⟩
  | .getTimer _ => ⟨0xF0FF, 0xF007⟩
  | .waitkey _ => ⟨0xF0FF, 0xF00A⟩
  | .setTimer _ => ⟨0xF0FF, 0xF015⟩
  | .setAudio _ => ⟨0xF0FF, 0xF018⟩
  | .addI _ => ⟨0xF0FF, 0xF01E⟩

/-- A word as the table numbers its bits: `nbits` bits of `w`, every bit above them 0. -/
def tableWord (nbits w : Nat) : Word := BitVec.ofNat 16 (w % 2 ^ nbits)

/-- The instruction the decoder reads from a word of the table, laid out as memory holds it. -/
def decodeTableWord (nbits w : Nat) : Option Instr :=
  match decode (bytesOfWord (tableWord nbits w)) with
  | .ok (i, _) => some i
  | .error _ => none

end Sys2Proof
end

