-- ==== Sys2Proof/Config.lean ====
section
/-! DEFINITION. What an implementation of the block fixes (spec/00_scope.md R5, R6) and the one value the
spec leaves free, the random byte (spec/43_alu.md R162, D38). -/

namespace Sys2Proof

/-- `MEM_SIZE` (R5, D45): bytes of program memory. -/
def Config.memSize : Nat := 4096

/-- `FB_W` (R5, D45): framebuffer columns. -/
def Config.fbW : Nat := 64

/-- `FB_H` (R5, D45): framebuffer rows. -/
def Config.fbH : Nat := 32

/-- Cells of one framebuffer, 2048 (R5). -/
def Config.fbCells : Nat := Config.fbW * Config.fbH

/-- `CARRY_RULE` (R6, D3): how FlagUpdate computes C. -/
inductive CarryRule where
  | highByteNonzero
  | literalBit0
deriving DecidableEq, Repr

/-- `SIGN_RULE` (R6, D4): how FlagUpdate computes S. -/
inductive SignRule where
  | gt7F16bit
  | bit7OfLowByte
deriving DecidableEq, Repr

/-- `UNDEFINED_POLICY` (R6, D11): what a step does with an undefined encoding. -/
inductive UndefinedPolicy where
  | fault
  | noop
deriving DecidableEq, Repr

/-- `DRAW_BIT_ORDER` (R6, D23): which column a sprite bit goes to. -/
inductive DrawBitOrder where
  | msbFirst
  | referenceLiteral
deriving DecidableEq, Repr

/-- `DRAW_EDGE` (R6, D24): what DRW does with a cell outside the framebuffer. -/
inductive DrawEdge where
  | wrap
  | clip
  | fault
deriving DecidableEq, Repr

/-- The parameters the source leaves open (R6). One value is fixed for one machine. -/
structure Params where
  /-- `FLAG_BIT_C` (D2). -/
  flagBitC : Fin 8
  /-- `FLAG_BIT_S` (D2). -/
  flagBitS : Fin 8
  /-- `FLAG_BIT_Z` (D2). -/
  flagBitZ : Fin 8
  carryRule : CarryRule
  signRule : SignRule
  undefinedPolicy : UndefinedPolicy
  drawBitOrder : DrawBitOrder
  drawEdge : DrawEdge
deriving DecidableEq, Repr

/-- The defaults of R6's table, which every rule and test vector of the spec uses. -/
def Params.default : Params where
  flagBitC := 0
  flagBitS := 1
  flagBitZ := 2
  carryRule := .highByteNonzero
  signRule := .gt7F16bit
  undefinedPolicy := .fault
  drawBitOrder := .msbFirst
  drawEdge := .wrap

/-- R6 asks for DISTINCT flag bit numbers. -/
abbrev Params.wf (p : Params) : Prop :=
  p.flagBitC ≠ p.flagBitS ∧ p.flagBitC ≠ p.flagBitZ ∧ p.flagBitS ≠ p.flagBitZ

/-- FREE VALUE (log entry 3): the n-th byte the environment's random source would give where the host supplied none.
R162: "an 8-bit value sampled afresh for this step under no law". No body, so nothing can be proved of its value. -/
opaque Config.freeByte : Nat → Byte

end Sys2Proof
end

