-- ==== Sys2Proof/Machine/State.lean ====
section
/-! DEFINITION. The machine's state as plain data (spec/10_state.md R20 to R34), the reasons a step or a host call can
stop, and the state after reset (spec/70_reset_and_hazards.md R240). -/

namespace Sys2Proof.Machine

/-- The spec's `FaultKind` (R33, R237). The spec's fault entry is a state the machine goes on from (R220): a raise is an
`Outcome.next` whose `fault` status holds the kind, so no step answers `Outcome.fault` (log entry 4; safe). -/
inductive Fault where
  /-- Raised by RET on an empty stack (R221) and, in states no run reaches, by a pop that would leave memory (log entry 5;
  safe: the spec's own fault entry). -/
  | stackUnderflow
  /-- Raised by CALL when the push would leave memory (R222). Safe: the spec's own fault entry. -/
  | stackOverflow
  /-- Raised at fetch when `pc` = 0x0FFF (R223). Safe: the spec's own fault entry. -/
  | fetchBounds
  /-- Raised by SKP and SKNP when Vx >= 16 (R224). Safe: the spec's own fault entry. -/
  | keyIndexBounds
  /-- Raised at decode by an undefined encoding under UNDEFINED_POLICY = fault (R225). Safe: the spec's own fault entry. -/
  | illegalInstruction
  /-- Raised by DRW when a sprite row is outside memory (R226). Safe: the spec's own fault entry. -/
  | memoryBounds
  /-- Raised by DRW under DRAW_EDGE = fault (R227). Safe: the spec's own fault entry. -/
  | framebufferBounds
deriving DecidableEq, Repr

/-- Why the model gives no next state at all. -/
inductive Refusal where
  /-- Raised by an arm of `exec` for an instruction that has no meaning yet; no arm does. Safe: it stops. -/
  | notModelled (mnemonic : String)
  /-- Raised by the host transactions `set_key` and `receive_input` for a key outside 0..15: D31, "has no move in the
  model (host precondition)". Never by a step. Safe: it stops (log entry 6). -/
  | keyOutOfRange (k : Nat)
  /-- Raised by the host transaction `reset(image)` for an image over 4096 bytes (D37). Never by a step. Safe: it stops
  (log entry 6). -/
  | imageTooLong (length : Nat)
deriving DecidableEq, Repr

/-- A store of byte cells in canonical form (log entry 9): a cell that is not listed holds 0. Program memory (R28) and each
framebuffer (R31, "one-byte cells") are such stores. -/
abbrev Memory := List Host.Cell

/-- The state tuple at the head of spec/10_state.md, in its names, and after it three fields of the model's own. -/
structure State where
  /-- The register file V0..V15; V15 holds the flags (R20, R22, R23). -/
  V : Vector Byte 16
  /-- The program counter (R25). -/
  pc : Word
  /-- The pointer register, 16 bits whose value is masked to 12 (R26). -/
  I : Word
  /-- The stack pointer (R27). -/
  sp : Word
  /-- Program memory, addresses 0..4095; it holds the stack (R28). -/
  mem : Memory
  /-- Framebuffer `fb[0]`: cell (col, row) is element col + 64*row (R31). -/
  fb0 : Memory
  /-- Framebuffer `fb[1]` (R31). -/
  fb1 : Memory
  /-- `fb_sel`, which buffer is "work" (R32). -/
  fbSel : Fin 2
  /-- The key-state table (R29). -/
  keys : Vector Bool 16
  /-- The input-wait slot (R30). -/
  wait : Option Reg
  /-- The sticky fault status (R33, R220). -/
  fault : Option Fault
  /-- MODEL's own: the parameters of R6, fixed for the machine; no step changes them (log entry 1). -/
  params : Params
  /-- MODEL's own: random bytes the host has supplied on the `rnd` input (R107) and no RND has sampled yet, oldest first
  (log entry 3). -/
  rndPending : List Byte
  /-- MODEL's own: how many random bytes the free source `Config.freeByte` has given (log entry 3). -/
  rndCount : Nat
deriving DecidableEq, Repr

/-- The machine right after reset with nothing loaded (R240): every register 0 but `sp` = 0x0FFF, memory and both
framebuffers all 0, no key pressed, not waiting, no fault. The parameters are R6's defaults (log entry 2); no random byte
is supplied or drawn yet (log entry 3). -/
def State.reset : State where
  V := Vector.replicate 16 0
  pc := 0
  I := 0
  sp := 0x0FFF
  mem := []
  fb0 := []
  fb1 := []
  fbSel := 0
  keys := Vector.replicate 16 false
  wait := none
  fault := none
  params := Params.default
  rndPending := []
  rndCount := 0

end Sys2Proof.Machine
end

