-- ==== Sys2Proof/Machine/Ops.lean ====
section
/-! DEFINITION. The named operations over memory, registers and framebuffers, the stack primitives, and the one operation
that raises a fault (spec/00_scope.md R8, spec/20_memory.md R51 to R56, spec/60_exceptions.md R220). -/

namespace Sys2Proof.Machine

/-- What one step or one host transaction answers. -/
abbrev Result := Host.Outcome State Fault Refusal

/-! ## Byte stores -/

/-- What a cell that is not listed holds: 0 (R57, "every byte not loaded by the image is 0"; R31 for framebuffers). -/
def Memory.unlisted : Byte := 0

/-- The byte at an address. -/
def Memory.read : Memory → Nat → Byte
  | [], _ => Memory.unlisted
  | (k, b) :: rest, a => if k = a then b else Memory.read rest a

/-- List a byte at its place in the address order. -/
def Memory.insert (a : Nat) (b : Byte) : Memory → Memory
  | [] => [(a, b)]
  | (k, v) :: rest => if a < k then (a, b) :: (k, v) :: rest else (k, v) :: Memory.insert a b rest

/-- Unlist an address. -/
def Memory.erase (a : Nat) : Memory → Memory
  | [] => []
  | (k, v) :: rest => if k = a then Memory.erase a rest else (k, v) :: Memory.erase a rest

/-- Write one byte, keeping the canonical form: a byte equal to what an unlisted cell holds is not listed. -/
def Memory.write (m : Memory) (a : Nat) (b : Byte) : Memory :=
  if b = Memory.unlisted then Memory.erase a m else Memory.insert a b (Memory.erase a m)

/-- The canonical form: addresses strictly rising, and no entry equal to what an unlisted cell holds. -/
abbrev Memory.wf (m : Memory) : Prop :=
  m.Pairwise (fun c d => c.1 < d.1) ∧ ∀ c ∈ m, c.2 ≠ Memory.unlisted

/-- Every listed address is below `n`. -/
abbrev Memory.within (n : Nat) (m : Memory) : Prop := ∀ c ∈ m, c.1 < n

/-- `MemRead(a, 2)`: two bytes, big-endian (R8, R51). -/
def Memory.readWord (m : Memory) (a : Nat) : Word := wordOfBytes (m.read a) (m.read (a + 1))

/-- `MemWrite(a, 2, v)`: the high byte at `a`, the low byte at `a + 1` (R8, R51). -/
def Memory.writeWord (m : Memory) (a : Nat) (v : Word) : Memory :=
  (m.write a (v.extractLsb' 8 8)).write (a + 1) (v.extractLsb' 0 8)

/-- A byte sequence laid out from address `a` up, in canonical form (R57, R240: the image, "loaded verbatim"). -/
def Memory.load (a : Nat) : List Byte → Memory
  | [] => []
  | b :: bs => if b = Memory.unlisted then Memory.load (a + 1) bs else (a, b) :: Memory.load (a + 1) bs

/-! ## One home per register: reads and writes -/

/-- `V[x]` (R8). -/
def State.reg (s : State) (x : Reg) : Byte := s.V.get x

/-- `V[x] <- b` (R8). -/
def State.setReg (s : State) (x : Reg) (b : Byte) : State := { s with V := s.V.set x.val b x.isLt }

/-- `pc <- a` (R8). -/
def State.setPc (s : State) (a : Word) : State := { s with pc := a }

/-- `next` and the skips (R8, R102): `pc <- pc + k` in 16 bits, not reduced modulo 4096. -/
def State.advance (s : State) (k : Word) : State := s.setPc (s.pc + k)

/-- `I <- v`: every write stores v AND 0x0FFF (R26). -/
def State.setI (s : State) (v : Word) : State := { s with I := v &&& 0x0FFF }

def State.setSp (s : State) (a : Word) : State := { s with sp := a }

def State.setMem (s : State) (m : Memory) : State := { s with mem := m }

/-- `wait <- Some(x)` or `None` (R30). -/
def State.setWait (s : State) (w : Option Reg) : State := { s with wait := w }

/-- `fault <- F` (R220). -/
def State.setFault (s : State) (f : Fault) : State := { s with fault := some f }

/-- `keys[k] <- b` (R206). -/
def State.setKeyBit (s : State) (k : Fin 16) (b : Bool) : State := { s with keys := s.keys.set k.val b k.isLt }

/-! ## Framebuffers (R31, R32) -/

/-- `fb[b]`. -/
def State.fb (s : State) (b : Fin 2) : Memory := if b = 0 then s.fb0 else s.fb1

/-- The buffer in the work role, `fb[fb_sel]`. -/
def State.work (s : State) : Memory := s.fb s.fbSel

/-- The buffer in the front role, `fb[1 - fb_sel]`. -/
def State.front (s : State) : Memory := s.fb (1 - s.fbSel)

/-- Replace the cells of the work buffer. -/
def State.setWork (s : State) (m : Memory) : State :=
  if s.fbSel = 0 then { s with fb0 := m } else { s with fb1 := m }

/-- `fb_sel <- 1 - fb_sel` (R122). -/
def State.swapRoles (s : State) : State := { s with fbSel := 1 - s.fbSel }

/-! ## The random byte (R162, log entry 3) -/

/-- The byte the next RND samples: the oldest one the host supplied, else the free source's next. -/
def State.rndByte (s : State) : Byte :=
  match s.rndPending with
  | b :: _ => b
  | [] => Config.freeByte s.rndCount

/-- The state after that byte is sampled: each byte is used once ("sampled afresh for this step"). -/
def State.rndSampled (s : State) : State :=
  match s.rndPending with
  | _ :: rest => { s with rndPending := rest }
  | [] => { s with rndCount := s.rndCount + 1 }

/-- The host supplies a byte on the `rnd` input (R107). -/
def State.supplyRnd (s : State) (b : Byte) : State := { s with rndPending := s.rndPending ++ [b] }

/-! ## Raising a fault (R8, R220) -/

/-- `raise F`: no state change but `fault <- F`; the machine then stops stepping (R100). There is no vector, no saved
register and no return: only reset clears it. -/
def State.raise (s : State) (f : Fault) : Result := .next (s.setFault f)

/-- End an instruction that may fault: its new state, or the fault raised on the state BEFORE it (R8: atomic). -/
def State.orRaise (s : State) : Except Fault State → Result
  | .ok t => .next t
  | .error f => s.raise f

/-! ## Stack primitives (R55, R56) -/

/-- Whether the two bytes of a stack entry, at `sp - 1` and `sp` as integers, are both in memory. -/
def entryInMemory (sp : Word) : Bool := 1 ≤ sp.toNat && sp.toNat < Config.memSize

/-- `Push(v)` (R55). -/
def State.push (s : State) (v : Word) : Except Fault State :=
  if entryInMemory s.sp then .ok ((s.setMem (s.mem.writeWord (s.sp.toNat - 1) v)).setSp (s.sp - 2))
  else .error .stackOverflow

/-- `Pop()` (R56). A pop that would leave memory (an `sp` no run reaches) raises the one fault RET's rule names, as R8 and
R54 say (log entry 5). -/
def State.pop (s : State) : Except Fault (Word × State) :=
  if s.sp = 0x0FFF then .error .stackUnderflow
  else if entryInMemory (s.sp + 2) then .ok (s.mem.readWord ((s.sp + 2).toNat - 1), s.setSp (s.sp + 2))
  else .error .stackUnderflow

/-! ## Run status (R33) -/

/-- Halted: `pc` >= 0x1000 (R104). -/
def State.halted (s : State) : Bool := Config.memSize ≤ s.pc.toNat

/-- Blocked on input: the output `awaiting` (R30). -/
def State.awaiting (s : State) : Bool := s.wait.isSome

/-- Faulted (R33). -/
def State.faulted (s : State) : Bool := s.fault.isSome

/-- A step does nothing (R100): faulted, blocked or halted. -/
def State.idle (s : State) : Bool := s.faulted || s.awaiting || s.halted

/-- The codes of R237. -/
def Fault.code : Fault → Nat
  | .stackUnderflow => 1
  | .stackOverflow => 2
  | .fetchBounds => 3
  | .keyIndexBounds => 4
  | .illegalInstruction => 5
  | .memoryBounds => 6
  | .framebufferBounds => 7

/-- The `fault` output (R107, R237). -/
def State.faultCode (s : State) : Nat :=
  match s.fault with
  | none => 0
  | some f => f.code

/-! ## Fetch (R101, R103) -/

/-- The two bytes at `pc` as a big-endian word; none where the second is outside memory. -/
def State.fetch (s : State) : Option Word :=
  if s.pc.toNat + 1 < Config.memSize then some (s.mem.readWord s.pc.toNat) else none

/-- The instruction of a fetched word: the halt literal first (R103), then dispatch (R105); none where undefined (R76). -/
def decodeFetched (w : Word) : Option Instr :=
  if w = 0x00E1 then some .hlt
  else match decodeWord w with
    | .ok i => some i
    | .error _ => none

/-- `undefined(w)` (R106). -/
def execUndefined (s : State) : Result :=
  match s.params.undefinedPolicy with
  | .fault => s.raise .illegalInstruction
  | .noop => .next (s.advance 2)

/-- A state whose next step fetches: not faulted, not blocked, `pc` where two bytes are in memory (0 if it was not). -/
def State.readyToFetch (s : State) : State :=
  { s with fault := none, wait := none, pc := if s.pc.toNat + 1 < Config.memSize then s.pc else 0 }

/-- Put a word where the next fetch reads it. -/
def State.placeWord (s : State) (w : Word) : State := s.setMem (s.mem.writeWord s.pc.toNat w)

end Sys2Proof.Machine
end

