-- ==== Sys2Proof/Machine/Operands.lean ====
section
/-! DEFINITION. The operand forms: what each field of an instruction stands for in a state (spec/30_encoding.md R72,
spec/44_pointer_draw.md R181 to R184, spec/45_keys_special.md R200). -/

namespace Sys2Proof.Machine

/-- `zext16` (R7): a register's byte in 16 bits. -/
def zext16 (b : Byte) : Word := b.setWidth 16

/-- An address field as a 16-bit value; no sign extension, no scaling (R72). -/
def addrOf (nnn : Addr) : Word := nnn.setWidth 16

/-- The key a register names, and whether it is pressed; an index of 16 or more is KeyIndexBounds (R200, R201, R224). -/
def State.keyPressed (s : State) (x : Reg) : Except Fault Bool :=
  if h : (s.reg x).toNat < 16 then .ok (s.keys.get ⟨(s.reg x).toNat, h⟩) else .error .keyIndexBounds

/-- End of a skip: `pc + 4` where the condition holds, else `pc + 2` (R102, R140). -/
def State.skipIf (s : State) (c : Bool) : State := if c then s.advance 4 else s.advance 2

/-! ## Sprites -/

/-- Whether every sprite byte, rows 0..n at `I + r`, is in memory (R182). -/
def State.spriteInMemory (s : State) (n : Fin 16) : Bool := s.I.toNat + n.val < Config.memSize

/-- The n + 1 sprite rows, the bytes at I + r (R182). -/
def State.spriteRows (s : State) (n : Fin 16) : List Byte :=
  (List.range (n.val + 1)).map fun r => s.mem.read (s.I.toNat + r)

/-- `off(b)`: the column offset of sprite bit `b` (R183). -/
def columnOffset (order : DrawBitOrder) (b : Nat) : Nat :=
  match order with
  | .msbFirst => 7 - b
  | .referenceLiteral => 8 - b

/-- The columns of the set bits of one row, from column `x0` (R181, R183). -/
def rowColumns (order : DrawBitOrder) (x0 : Nat) (row : Byte) : List Nat :=
  ((List.range 8).filter fun b => row.getLsbD b).map fun b => x0 + columnOffset order b

/-- The (column, row) pairs of the set bits of a sprite whose first row is at `y` (R181). -/
def spriteTargets (order : DrawBitOrder) (x0 : Nat) : Nat → List Byte → List (Nat × Nat)
  | _, [] => []
  | y, row :: rows => ((rowColumns order x0 row).map fun col => (col, y)) ++ spriteTargets order x0 (y + 1) rows

/-- Whether a column and a row are on the 64 x 32 framebuffer. -/
def onScreen (col rw : Nat) : Bool := col < Config.fbW && rw < Config.fbH

/-- `place(col, rw)` (R184): the cell, none where the bit is dropped, FramebufferBounds. -/
def place (edge : DrawEdge) (col rw : Nat) : Except Fault (Option Nat) :=
  match edge with
  | .wrap => .ok (some (col % Config.fbW + Config.fbW * (rw % Config.fbH)))
  | .clip => .ok (if onScreen col rw then some (col + Config.fbW * rw) else none)
  | .fault => if onScreen col rw then .ok (some (col + Config.fbW * rw)) else .error .framebufferBounds

/-- The cells of every placed bit, or the fault of the first that cannot be placed (R184, "before any cell changes"). -/
def placeAll (edge : DrawEdge) : List (Nat × Nat) → Except Fault (List Nat)
  | [] => .ok []
  | (col, rw) :: rest =>
    match place edge col rw, placeAll edge rest with
    | .error f, _ => .error f
    | .ok _, .error f => .error f
    | .ok none, .ok cells => .ok cells
    | .ok (some c), .ok cells => .ok (c :: cells)

/-- The set `T` of R181: the work cells a DRW toggles, or its fault (MemoryBounds first: R228). -/
def State.drawCells (s : State) (x y : Reg) (n : Fin 16) : Except Fault (List Nat) :=
  if s.spriteInMemory n then
    placeAll s.params.drawEdge
      (spriteTargets s.params.drawBitOrder (s.reg x).toNat (s.reg y).toNat (s.spriteRows n))
  else .error .memoryBounds

/-- Toggle one cell: `cell XOR 1` (R181, D26). -/
def toggleCell (fb : Memory) (c : Nat) : Memory := fb.write c (fb.read c ^^^ 1)

/-- Toggle every cell of a list, each once: of the set `T`, since the list has no repeats (DEDUCED, log entry 11). -/
def toggleCells (fb : Memory) (cells : List Nat) : Memory := cells.foldl toggleCell fb

end Sys2Proof.Machine
end

