-- ==== Sys2Proof/Machine/Flags.lean ====
section
/-! DEFINITION. The flags of V15 and FlagUpdate (spec/10_state.md R23, spec/43_alu.md R152, R163). -/

namespace Sys2Proof.Machine

/-- C of a 16-bit result, by CARRY_RULE (R152). -/
def carryOf (rule : CarryRule) (r16 : Word) : Bool :=
  match rule with
  | .highByteNonzero => r16.extractLsb' 8 8 != 0
  | .literalBit0 => r16.getLsbD 0

/-- S of a 16-bit result, by SIGN_RULE (R152). -/
def signOf (rule : SignRule) (r16 : Word) : Bool :=
  match rule with
  | .gt7F16bit => 0x007F < r16.toNat
  | .bit7OfLowByte => r16.getLsbD 7

/-- Z of a 16-bit result: its low byte is 0 (R152). -/
def zeroOf (r16 : Word) : Bool := r16.extractLsb' 0 8 == 0

/-- Write one bit of a byte and leave the other seven (R23). -/
def putBit (v : Byte) (k : Fin 8) (b : Bool) : Byte :=
  if b then v ||| (1#8 <<< k.val) else v &&& ~~~(1#8 <<< k.val)

/-- The flag byte after FlagUpdate(r16) on a flag byte `v`: C, then S, then Z; the other five bits are `v`'s (R152;
log entry 12 for flag bits that coincide, which R6 excludes). -/
def flagByte (p : Params) (v : Byte) (r16 : Word) : Byte :=
  putBit (putBit (putBit v p.flagBitC (carryOf p.carryRule r16)) p.flagBitS (signOf p.signRule r16))
    p.flagBitZ (zeroOf r16)

/-- `FlagUpdate(r16)` on the state as the destination write left it (R152, D6). -/
def State.flagUpdate (s : State) (r16 : Word) : State :=
  s.setReg flagReg (flagByte s.params (s.reg flagReg) r16)

/-- The common end of ADD, SUB and RSUB (R157, R158, R160): the low byte to Vx, then FlagUpdate, then `next`. -/
def State.finishArith (s : State) (x : Reg) (r16 : Word) : State :=
  ((s.setReg x (r16.extractLsb' 0 8)).flagUpdate r16).advance 2

end Sys2Proof.Machine
end

