-- ==== Sys2Proof/Machine/Alu.lean ====
section
/-! DEFINITION. Immediate load and add, the register-register operations of family 8, and RND (spec/43_alu.md R150 to
R162). Operands are read before any write of the step. -/

namespace Sys2Proof.Machine

/-- LD_IMM (R150). -/
def execLdImm (x : Reg) (kk : Byte) (s : State) : Result := .next ((s.setReg x kk).advance 2)

/-- ADD_IMM (R151, D39): modulo 256, no flags. -/
def execAddImm (x : Reg) (kk : Byte) (s : State) : Result := .next ((s.setReg x (s.reg x + kk)).advance 2)

/-- MOV (R153). -/
def execMov (x y : Reg) (s : State) : Result := .next ((s.setReg x (s.reg y)).advance 2)

/-- OR (R154). -/
def execOr (x y : Reg) (s : State) : Result := .next ((s.setReg x (s.reg x ||| s.reg y)).advance 2)

/-- AND (R155). -/
def execAnd (x y : Reg) (s : State) : Result := .next ((s.setReg x (s.reg x &&& s.reg y)).advance 2)

/-- XOR (R156). -/
def execXor (x y : Reg) (s : State) : Result := .next ((s.setReg x (s.reg x ^^^ s.reg y)).advance 2)

/-- ADD (R157). -/
def execAdd (x y : Reg) (s : State) : Result := .next (s.finishArith x (zext16 (s.reg x) + zext16 (s.reg y)))

/-- SUB (R158, D5): Vx - Vy in 16 bits. -/
def execSub (x y : Reg) (s : State) : Result := .next (s.finishArith x (zext16 (s.reg x) - zext16 (s.reg y)))

/-- ROR (R159, D8); Vy is not read. -/
def execRor (x : Reg) (s : State) : Result :=
  .next ((s.setReg x ((s.reg x >>> 1) ||| ((s.reg x &&& 0x01) <<< 7))).advance 2)

/-- RSUB (R160, D5): Vy - Vx in 16 bits. -/
def execRsub (x y : Reg) (s : State) : Result := .next (s.finishArith x (zext16 (s.reg y) - zext16 (s.reg x)))

/-- ROL (R161, D8); Vy is not read. -/
def execRol (x : Reg) (s : State) : Result :=
  .next ((s.setReg x ((s.reg x <<< 1) ||| (s.reg x >>> 7))).advance 2)

/-- RND (R162, D38): the sampled byte under the mask. -/
def execRnd (x : Reg) (kk : Byte) (s : State) : Result :=
  .next ((s.rndSampled.setReg x (s.rndByte &&& kk)).advance 2)

end Sys2Proof.Machine
end

