-- ==== Sys2Proof/Machine/Control.lean ====
section
/-! DEFINITION. Family 0, jump, call, indexed jump (spec/41_control.md R120 to R126, spec/40_fetch_decode.md R103). -/

namespace Sys2Proof.Machine

/-- CLS (R121): every cell of the work buffer becomes 0. -/
def execCls (s : State) : Result := .next ((s.setWork []).advance 2)

/-- HLT (R103, D17): `pc <- 0x1000`. -/
def execHlt (s : State) : Result := .next (s.setPc 0x1000)

/-- SWAP (R122). -/
def execSwap (s : State) : Result := .next (s.swapRoles.advance 2)

/-- RET (R123): `pc <- Pop() + 2`. -/
def execRet (s : State) : Result := s.orRaise (s.pop.map fun vt => vt.2.setPc (vt.1 + 2))

/-- The family-0 no-operation (R120). -/
def execNop0 (s : State) : Result := .next (s.advance 2)

/-- JP (R124). -/
def execJp (nnn : Addr) (s : State) : Result := .next (s.setPc (addrOf nnn))

/-- CALL (R125, D13): the address of the CALL itself is pushed. -/
def execCall (nnn : Addr) (s : State) : Result := s.orRaise ((s.push s.pc).map fun t => t.setPc (addrOf nnn))

/-- JP_V0 (R126, D19): not masked. -/
def execJpV0 (nnn : Addr) (s : State) : Result := .next (s.setPc (zext16 (s.reg 0) + addrOf nnn))

end Sys2Proof.Machine
end

