-- ==== Sys2Proof/Machine/Keys.lean ====
section
/-! DEFINITION. Key queries, WAITKEY and the reserved timer words (spec/45_keys_special.md R200 to R203). -/

namespace Sys2Proof.Machine

/-- SKP (R200). -/
def execSkp (x : Reg) (s : State) : Result := s.orRaise ((s.keyPressed x).map fun b => s.skipIf b)

/-- SKNP (R201). -/
def execSknp (x : Reg) (s : State) : Result := s.orRaise ((s.keyPressed x).map fun b => s.skipIf (!b))

/-- GET_TIMER (R203, D12): a no-operation; Vx is not written. -/
def execGetTimer (s : State) : Result := .next (s.advance 2)

/-- WAITKEY (R202, D30): record the destination, advance; Vx is written at delivery (R205). -/
def execWaitkey (x : Reg) (s : State) : Result := .next ((s.setWait (some x)).advance 2)

/-- SET_TIMER (R203, D12): a no-operation. -/
def execSetTimer (s : State) : Result := .next (s.advance 2)

/-- SET_AUDIO (R203, D12): a no-operation. -/
def execSetAudio (s : State) : Result := .next (s.advance 2)

end Sys2Proof.Machine
end

