-- ==== Sys2Proof/Machine/Pointer.lean ====
section
/-! DEFINITION. The pointer register and DRW (spec/44_pointer_draw.md R180 to R184, spec/45_keys_special.md R204). -/

namespace Sys2Proof.Machine

/-- LD_I (R180). -/
def execLdI (nnn : Addr) (s : State) : Result := .next ((s.setI (addrOf nnn)).advance 2)

/-- DRW (R181): toggle the sprite's cells in the work buffer, or raise before any cell changes. -/
def execDrw (x y : Reg) (n : Fin 16) (s : State) : Result :=
  s.orRaise ((s.drawCells x y n).map fun cells => (s.setWork (toggleCells s.work cells)).advance 2)

/-- ADD_I (R204): modulo 4096 by the mask of R26. -/
def execAddI (x : Reg) (s : State) : Result := .next ((s.setI (s.I + zext16 (s.reg x))).advance 2)

end Sys2Proof.Machine
end

