-- ==== Sys2Proof/Machine/Skip.lean ====
section
/-! DEFINITION. The conditional skips of families 3, 4 and 5 (spec/42_skip.md R140 to R142). -/

namespace Sys2Proof.Machine

/-- SE_IMM (R140). -/
def execSeImm (x : Reg) (kk : Byte) (s : State) : Result := .next (s.skipIf (s.reg x == kk))

/-- SNE_IMM (R141). -/
def execSneImm (x : Reg) (kk : Byte) (s : State) : Result := .next (s.skipIf (s.reg x != kk))

/-- SE_REG (R142); the word's `n` is not decoded. -/
def execSeReg (x y : Reg) (s : State) : Result := .next (s.skipIf (s.reg x == s.reg y))

end Sys2Proof.Machine
end

