-- ==== Sys2Proof/Machine/Dispatch.lean ====
section
/-! DEFINITION. One arm per instruction, each one call of its meaning. -/

namespace Sys2Proof.Machine

/-- What an instruction does in a state, be it one that step would run it in or not (DEDUCED, log entry 14). -/
def exec (i : Instr) (s : State) : Host.Outcome State Fault Refusal :=
  match i with
  -- family 0 and control transfer
  | .cls => Sys2Proof.Machine.execCls s
  | .hlt => Sys2Proof.Machine.execHlt s
  | .swap => Sys2Proof.Machine.execSwap s
  | .ret => Sys2Proof.Machine.execRet s
  | .nop0 _ => Sys2Proof.Machine.execNop0 s
  | .jp nnn => Sys2Proof.Machine.execJp nnn s
  | .call nnn => Sys2Proof.Machine.execCall nnn s
  -- skips
  | .seImm x kk => Sys2Proof.Machine.execSeImm x kk s
  | .sneImm x kk => Sys2Proof.Machine.execSneImm x kk s
  | .seReg x y _ => Sys2Proof.Machine.execSeReg x y s
  -- immediate and register-register
  | .ldImm x kk => Sys2Proof.Machine.execLdImm x kk s
  | .addImm x kk => Sys2Proof.Machine.execAddImm x kk s
  | .mov x y => Sys2Proof.Machine.execMov x y s
  | .or x y => Sys2Proof.Machine.execOr x y s
  | .and x y => Sys2Proof.Machine.execAnd x y s
  | .xor x y => Sys2Proof.Machine.execXor x y s
  | .add x y => Sys2Proof.Machine.execAdd x y s
  | .sub x y => Sys2Proof.Machine.execSub x y s
  | .ror x _ => Sys2Proof.Machine.execRor x s
  | .rsub x y => Sys2Proof.Machine.execRsub x y s
  | .rol x _ => Sys2Proof.Machine.execRol x s
  -- pointer, indexed jump, random, draw
  | .ldI nnn => Sys2Proof.Machine.execLdI nnn s
  | .jpV0 nnn => Sys2Proof.Machine.execJpV0 nnn s
  | .rnd x kk => Sys2Proof.Machine.execRnd x kk s
  | .drw x y n => Sys2Proof.Machine.execDrw x y n s
  -- keys and special
  | .skp x => Sys2Proof.Machine.execSkp x s
  | .sknp x => Sys2Proof.Machine.execSknp x s
  | .getTimer _ => Sys2Proof.Machine.execGetTimer s
  | .waitkey x => Sys2Proof.Machine.execWaitkey x s
  | .setTimer _ => Sys2Proof.Machine.execSetTimer s
  | .setAudio _ => Sys2Proof.Machine.execSetAudio s
  | .addI x => Sys2Proof.Machine.execAddI x s

end Sys2Proof.Machine
end

