-- ==== Sys2Proof/Machine/Step.lean ====
section
/-! DEFINITION. The step transaction (spec/40_fetch_decode.md R100) and the host's way to place one instruction. -/

namespace Sys2Proof.Machine

/-- `step()` (R100): nothing while faulted, blocked or halted; else fetch (R101), decode (R103, R105) and execute. The
faults of fetch and decode come before the instruction's own (R228). -/
def step (s : State) : Host.Outcome State Fault Refusal :=
  if s.idle then .next s
  else
    match s.fetch with
    | none => s.raise .fetchBounds
    | some w =>
      match decodeFetched w with
      | some i => exec i s
      | none => execUndefined s

/-- `s` with a word of the opcode table placed where the next step fetches (log entry 8): not faulted, not blocked, `pc`
kept where two bytes are in memory, the word's two bytes stored there. -/
def State.withFetchWord (s : State) (nbits w : Nat) : State := s.readyToFetch.placeWord (tableWord nbits w)

end Sys2Proof.Machine
end

