-- ==== Sys2Proof/Machine/Transactions.lean ====
section
/-! DEFINITION. The block's transaction interface (spec/40_fetch_decode.md R107): what the host can do to the machine, and
what it can see. Each transaction is atomic and none overlaps another (log entry 15). -/

namespace Sys2Proof.Machine

/-- An input transaction of R107. -/
inductive Transaction where
  /-- `reset(image)` (R240). -/
  | reset (image : List Byte)
  /-- `step` (R100). -/
  | step
  /-- The host supplies the random byte a coming RND samples (R107, R162). -/
  | rnd (b : Byte)
  /-- `set_key(k, b)` (R206). -/
  | setKey (k : Nat) (b : Bool)
  /-- `receive_input(k)` (R205). -/
  | receiveInput (k : Nat)
deriving DecidableEq, Repr

/-- `reset(image)` (R240): every piece of state at its reset value and the image at 0. An image over 4096 bytes has no
move (D37). The parameters are the machine's own and the random source is the environment's (R34), so both stay (log
entry 7). -/
def State.resetImage (s : State) (image : List Byte) : Result :=
  if image.length ≤ Config.memSize then
    .next { State.reset with
      mem := Memory.load 0 image, params := s.params, rndPending := s.rndPending, rndCount := s.rndCount }
  else .refused (.imageTooLong image.length)

/-- `set_key(k, b)`, k in 0..15 (R206; log entry 6 for another k). It writes the key while the machine is halted too
(DESIGN CHOICE, log entry 16: R206 and R107 give it unconditionally, R104 names receive_input alone as changing a halted
state). -/
def State.setKey (s : State) (k : Nat) (b : Bool) : Result :=
  if h : k < 16 then .next (s.setKeyBit ⟨k, h⟩ b) else .refused (.keyOutOfRange k)

/-- `receive_input(k)`, k in 0..15 (R205, D31): writes the key into the awaited register and clears the slot; without a
slot, nothing. -/
def State.receiveInput (s : State) (k : Nat) : Result :=
  if k < 16 then
    match s.wait with
    | none => .next s
    | some r => .next ((s.setReg r (BitVec.ofNat 8 k)).setWait none)
  else .refused (.keyOutOfRange k)

/-- What one transaction does. -/
def transact (t : Transaction) (s : State) : Result :=
  match t with
  | .reset image => s.resetImage image
  | .step => Sys2Proof.Machine.step s
  | .rnd b => .next (s.supplyRnd b)
  | .setKey k b => s.setKey k b
  | .receiveInput k => s.receiveInput k

/-- A sequence of transactions, the first first, stopping at the first that gives no next state. -/
def transactAll : List Transaction → State → Result
  | [], s => .next s
  | t :: ts, s =>
    match transact t s with
    | .next s' => transactAll ts s'
    | .fault f => .fault f
    | .refused r => .refused r

/-! ## Outputs (R107, R35). `awaiting`, `halted` and the fault status are State.awaiting, State.halted and
State.faultCode. -/

/-- `front_fb`: a cell of the front buffer. -/
def State.frontCell (s : State) (c : Nat) : Byte := s.front.read c

/-- `front_fb` whole: its 2048 cells. -/
def State.frontCells (s : State) : List Byte := (List.range Config.fbCells).map s.frontCell

/-- `mem` whole: its 4096 bytes. -/
def State.memBytes (s : State) : List Byte := (List.range Config.memSize).map s.mem.read

end Sys2Proof.Machine
end

