-- ==== Sys2Proof/Safety.lean ====
section
/-! DEFINITION. What a good state is, the parts of the state that a statement says are left alone, and the spec's own
words for which encodings are undefined, what a sprite covers and which registers an instruction names. -/

namespace Sys2Proof.Machine

/-- How many entries the stack holds: an entry is 2 bytes and the empty stack has `sp` = 0x0FFF (R27, R55). -/
def State.depth (s : State) : Nat := (0x0FFF#16 - s.sp).toNat / 2

/-- The k-th stack entry, k from 1: the word at 0x1000 - 2k (R55). -/
def State.entry (s : State) (k : Nat) : Word := s.mem.readWord (0x1000 - 2 * k)

/-- What holds of every state the machine can be in: at reset, and after every transaction from a state where it holds. -/
structure State.Inv (s : State) : Prop where
  /-- Program memory is in canonical form and lists only addresses 0..4095 (R28). -/
  memCanonical : s.mem.wf
  memInRange : s.mem.within Config.memSize
  /-- Each framebuffer is in canonical form and lists only cells 0..2047 (R31). -/
  fbCanonical : ∀ b, (s.fb b).wf
  fbInRange : ∀ b, (s.fb b).within Config.fbCells
  /-- Each cell is 0 or 1 (R31, D26). -/
  fbPixels : ∀ b c, (s.fb b).read c = 0 ∨ (s.fb b).read c = 1
  /-- I is within program memory (R26). -/
  pointerMasked : s.I.toNat < Config.memSize
  /-- `sp` is 0xFFFF (2048 entries) or an odd address of memory (R27, R55). -/
  spOnEntry : s.sp = 0xFFFF ∨ (s.sp.toNat % 2 = 1 ∧ s.sp.toNat < Config.memSize)
  /-- No rule takes `pc` beyond 0x10FE (D21). -/
  pcReachable : s.pc.toNat ≤ 0x10FE
  /-- Every entry on the stack is the address of a CALL that was fetched (R123, R125). -/
  entriesAreCalls : ∀ k, 1 ≤ k → k ≤ s.depth → (s.entry k).toNat < 0x0FFF
  /-- `wait` and `fault` are never both set (R205). -/
  notBlockedAndFaulted : s.wait = none ∨ s.fault = none
  /-- The flag bits are distinct (R6). -/
  flagBitsDistinct : s.params.wf

/-! ## Frames: what `t` has unchanged from `s` -/

/-- Every register but those listed. -/
def State.sameRegsBut (s t : State) (xs : List Reg) : Prop := ∀ r, r ∉ xs → t.reg r = s.reg r

/-- Every byte of memory. -/
def State.sameMemory (s t : State) : Prop := ∀ a, t.mem.read a = s.mem.read a

/-- The role bit and every cell of both framebuffers. -/
def State.sameDisplay (s t : State) : Prop :=
  t.fbSel = s.fbSel ∧ ∀ b c, (t.fb b).read c = (s.fb b).read c

/-- The keys, the input-wait slot, the fault status and the parameters. -/
def State.sameStatus (s t : State) : Prop :=
  t.keys = s.keys ∧ t.wait = s.wait ∧ t.fault = s.fault ∧ t.params = s.params

/-- The random bytes supplied and drawn. -/
def State.sameRandom (s t : State) : Prop := t.rndPending = s.rndPending ∧ t.rndCount = s.rndCount

/-- Everything but the registers listed, `pc` and the display. -/
def State.sameButDisplay (s t : State) (xs : List Reg) : Prop :=
  s.sameRegsBut t xs ∧ t.I = s.I ∧ t.sp = s.sp ∧ s.sameMemory t ∧ s.sameStatus t ∧ s.sameRandom t

/-- Everything but the registers listed and `pc`: the frame of an instruction that only computes. -/
def State.onlyRegs (s t : State) (xs : List Reg) : Prop := s.sameButDisplay t xs ∧ s.sameDisplay t

/-- Everything but `pc`. -/
def State.onlyPc (s t : State) : Prop := s.onlyRegs t []

/-- A state whose next step fetches, `pc` with two bytes in memory (R100, R101). -/
def State.running (s : State) : Prop := s.fault = none ∧ s.wait = none ∧ s.pc.toNat < 0x0FFF

/-! ## What a sprite covers, in the words of R181 to R184 -/

/-- `off(b)` (R183). -/
def offsetOfBit (order : DrawBitOrder) (b : Nat) : Nat :=
  match order with
  | .msbFirst => 7 - b
  | .referenceLiteral => 8 - b

/-- A set bit b of sprite row r, for some r in 0..n and b in 0..7, falls at this column and row (R181, R183). -/
def State.spriteHits (s : State) (x y : Reg) (n : Fin 16) (col rw : Nat) : Prop :=
  ∃ r b, r ≤ n.val ∧ b < 8 ∧ (s.mem.read (s.I.toNat + r)).getLsbD b = true ∧
    col = (s.reg x).toNat + offsetOfBit s.params.drawBitOrder b ∧ rw = (s.reg y).toNat + r

/-- The cell a column and a row are placed at (R184). -/
def placedAt (edge : DrawEdge) (col rw c : Nat) : Prop :=
  match edge with
  | .wrap => c = col % 64 + 64 * (rw % 32)
  | .clip => col < 64 ∧ rw < 32 ∧ c = col + 64 * rw
  | .fault => col < 64 ∧ rw < 32 ∧ c = col + 64 * rw

/-- The sprite of a DRW covers a cell: it is in R181's set T. -/
def State.spriteCovers (s : State) (x y : Reg) (n : Fin 16) (c : Nat) : Prop :=
  ∃ col rw, s.spriteHits x y n col rw ∧ placedAt s.params.drawEdge col rw c

/-- Some set bit of the sprite falls outside the 64 x 32 framebuffer (R227). -/
def State.spriteLeavesScreen (s : State) (x y : Reg) (n : Fin 16) : Prop :=
  ∃ col rw, s.spriteHits x y n col rw ∧ (64 ≤ col ∨ 32 ≤ rw)

end Sys2Proof.Machine

namespace Sys2Proof

/-- R76's undefined encodings, word by word. -/
def undefinedEncoding (w : Word) : Prop :=
  w.toNat / 4096 = 0x9 ∨
  (w.toNat / 4096 = 0x8 ∧ w.toNat % 16 ∈ [0x8, 0x9, 0xA, 0xB, 0xC, 0xD, 0xF]) ∨
  (w.toNat / 4096 = 0xE ∧ w.toNat % 256 ∉ [0x9E, 0xA1]) ∨
  (w.toNat / 4096 = 0xF ∧ w.toNat % 256 ∉ [0x07, 0x0A, 0x15, 0x18, 0x1E])

/-- The register an instruction writes as its destination (R21), WAITKEY's excepted: it is written at delivery (R202). -/
def Instr.dest : Instr → Option Reg
  | .ldImm x _ | .addImm x _ | .rnd x _ => some x
  | .mov x _ | .or x _ | .and x _ | .xor x _ | .add x _ | .sub x _ | .ror x _ | .rsub x _ | .rol x _ => some x
  | .cls | .hlt | .swap | .ret | .nop0 _ | .jp _ | .call _ | .ldI _ | .jpV0 _ => none
  | .seImm _ _ | .sneImm _ _ | .seReg _ _ _ | .drw _ _ _ => none
  | .skp _ | .sknp _ | .getTimer _ | .waitkey _ | .setTimer _ | .setAudio _ | .addI _ => none

/-- The instructions that make a flag update (R23): ADD, SUB, RSUB. -/
def Instr.updatesFlags : Instr → Bool
  | .add _ _ | .sub _ _ | .rsub _ _ => true
  | .cls | .hlt | .swap | .ret | .nop0 _ | .jp _ | .call _ | .ldI _ | .jpV0 _ => false
  | .seImm _ _ | .sneImm _ _ | .seReg _ _ _ | .drw _ _ _ => false
  | .ldImm _ _ | .addImm _ _ | .rnd _ _ | .mov _ _ | .or _ _ | .and _ _ | .xor _ _ | .ror _ _ | .rol _ _ => false
  | .skp _ | .sknp _ | .getTimer _ | .waitkey _ | .setTimer _ | .setAudio _ | .addI _ => false

/-- The registers whose values an instruction's meaning reads as operands (R21; V0 implicitly for JP_V0). -/
def Instr.reads : Instr → List Reg
  | .seImm x _ | .sneImm x _ | .addImm x _ | .ror x _ | .rol x _ => [x]
  | .seReg x y _ | .or x y | .and x y | .xor x y | .add x y | .sub x y | .rsub x y | .drw x y _ => [x, y]
  | .mov _ y => [y]
  | .jpV0 _ => [0]
  | .skp x | .sknp x | .addI x => [x]
  | .cls | .hlt | .swap | .ret | .nop0 _ | .jp _ | .call _ | .ldI _ => []
  | .ldImm _ _ | .rnd _ _ | .getTimer _ | .waitkey _ | .setTimer _ | .setAudio _ => []

end Sys2Proof
end

