-- ==== Sys2Proof/Certificates/Slice0/Obligations.lean ====
section
/-! DEFINITION. The statements for the provers, each from numbered rules of spec/. A statement about an instruction says the
word that stands for it, that it completes, what it writes, and what it leaves alone. -/

open Sys2Proof Sys2Proof.Machine

/-! ## Reset -/

/-- R240: the host's `reset(image)` puts every piece of state at its reset value, with the image at 0; a longer image has no
move (D37). -/
def Obligations.ResetLoadsImageAndClearsState : Prop :=
  ∀ (s : State) (image : List Byte),
    (image.length ≤ 4096 → ∃ t, transact (.reset image) s = .next t ∧
      (∀ r, t.reg r = 0) ∧ t.pc = 0 ∧ t.I = 0 ∧ t.sp = 0x0FFF ∧
      (∀ a, t.mem.read a = if a < image.length then image.getD a 0 else 0) ∧
      (∀ b c, (t.fb b).read c = 0) ∧ t.fbSel = 0 ∧ (∀ k, t.keys.get k = false) ∧
      t.wait = none ∧ t.fault = none) ∧
    (4096 < image.length → transact (.reset image) s = .refused (.imageTooLong image.length))

/-- The state the model calls reset is what `reset` of an empty image makes of it, and it holds what the table of
10_state.md section 10 lists. -/
def Obligations.ResetStateIsEmptyImageReset : Prop :=
  transact (.reset []) State.reset = .next State.reset ∧
  (∀ r, State.reset.reg r = 0) ∧ State.reset.pc = 0 ∧ State.reset.I = 0 ∧ State.reset.sp = 0x0FFF ∧
  (∀ a, State.reset.mem.read a = 0) ∧ (∀ b c, (State.reset.fb b).read c = 0) ∧ State.reset.fbSel = 0 ∧
  (∀ k, State.reset.keys.get k = false) ∧ State.reset.wait = none ∧ State.reset.fault = none

/-! ## The step -/

/-- R100, R101: what a step is, case by case. -/
def Obligations.StepFollowsTheCycle : Prop :=
  ∀ s : State,
    (s.fault ≠ none ∨ s.wait ≠ none ∨ 0x1000 ≤ s.pc.toNat → step s = .next s) ∧
    (s.fault = none → s.wait = none → s.pc.toNat = 0x0FFF → step s = .next (s.setFault .fetchBounds)) ∧
    (s.running → ∀ w, w = wordOfBytes (s.mem.read s.pc.toNat) (s.mem.read (s.pc.toNat + 1)) →
      (w = 0x00E1 → step s = exec .hlt s) ∧
      (∀ i, decodeWord w = .ok i → step s = exec i s) ∧
      (∀ e, decodeWord w = .error e → step s = execUndefined s))

/-- Where the bytes at `pc` decode to an instruction, a step is `exec` of it on the same state: this step adds nothing
around it (`pc` is moved by the instruction itself, R102). -/
def Obligations.StepRunsTheDecodedInstruction : Prop :=
  ∀ (s : State) (i : Instr) (rest : List Byte), s.running →
    decode [s.mem.read s.pc.toNat, s.mem.read (s.pc.toNat + 1)] = .ok (i, rest) → step s = exec i s

/-- The host's placed word runs as the next instruction (the model's own operation, log entry 8). -/
def Obligations.PlacedWordRunsNext : Prop :=
  ∀ (s : State) (w : Nat) (i : Instr), decodeTableWord 16 w = some i →
    step (s.withFetchWord 16 w) = exec i (s.withFetchWord 16 w)

/-- Every step of every state answers a next state: the model stops on no instruction and no word. -/
def Obligations.EveryStepAnswersNext : Prop :=
  (∀ (i : Instr) (s : State), ∃ t, exec i s = .next t) ∧ (∀ s : State, ∃ t, step s = .next t)

/-- R76, R106, R225: an undefined encoding raises IllegalInstruction and changes nothing else, or under `noop` only
advances `pc` by 2. -/
def Obligations.UndefinedEncodingFollowsPolicy : Prop :=
  ∀ s : State, s.running →
    undefinedEncoding (wordOfBytes (s.mem.read s.pc.toNat) (s.mem.read (s.pc.toNat + 1))) →
    (s.params.undefinedPolicy = .fault → step s = .next (s.setFault .illegalInstruction)) ∧
    (s.params.undefinedPolicy = .noop → ∃ t, step s = .next t ∧ t.pc = s.pc + 2 ∧ s.onlyPc t)

/-- R120's corner case, R241: through memory that holds 0 a run of k steps moves `pc` by 2k and changes nothing else, so
from reset with an empty image the machine halts after 2048 steps. -/
def Obligations.ZeroedMemoryIsSlidThrough : Prop :=
  (∀ (k : Nat) (s : State), s.fault = none → s.wait = none → s.pc.toNat + 2 * k ≤ 4096 →
    (∀ a, s.pc.toNat ≤ a → a < s.pc.toNat + 2 * k → s.mem.read a = 0) →
    Sys2Proof.core.run k s = .next (s.advance (BitVec.ofNat 16 (2 * k)))) ∧
  (∃ t, Sys2Proof.core.run 2048 State.reset = .next t ∧ t.pc = 0x1000 ∧ t.fault = none)

/-! ## Faults -/

/-- R220: a raise changes nothing but the status, later steps change nothing, and nothing but reset clears it. -/
def Obligations.FaultsArePreciseAndSticky : Prop :=
  (∀ s t : State, step s = .next t → t.fault ≠ s.fault →
    s.fault = none ∧ ∃ f, t = s.setFault f ∧ t.faultCode = f.code) ∧
  (∀ s : State, s.fault ≠ none → step s = .next s) ∧
  (∀ (s t : State) (tr : Transaction), s.fault ≠ none → transact tr s = .next t →
    t.fault = s.fault ∨ ((∃ image, tr = .reset image) ∧ t.fault = none))

/-- A faulted machine stays as it is under any host behaviour short of reset: a whole sequence of transactions leaves the
status, `pc`, I, `sp`, memory and display alone (R220, R236). -/
def Obligations.FaultedMachineStaysPut : Prop :=
  ∀ (ts : List Transaction) (s t : State) (f : Fault), s.fault = some f → s.wait = none →
    (∀ image, Transaction.reset image ∉ ts) → transactAll ts s = .next t →
    t.fault = some f ∧ t.V = s.V ∧ t.pc = s.pc ∧ t.I = s.I ∧ t.sp = s.sp ∧ t.mem = s.mem ∧
      t.fb0 = s.fb0 ∧ t.fb1 = s.fb1 ∧ t.fbSel = s.fbSel ∧ t.wait = none

/-- R237, R228: the code of each fault, and what raises it: FetchBounds at fetch, then IllegalInstruction at decode, then
the instruction's own checks, MemoryBounds before FramebufferBounds. -/
def Obligations.FaultsHaveTheirCausesAndCodes : Prop :=
  (∀ s : State, s.faultCode = match s.fault with
    | none => 0
    | some .stackUnderflow => 1
    | some .stackOverflow => 2
    | some .fetchBounds => 3
    | some .keyIndexBounds => 4
    | some .illegalInstruction => 5
    | some .memoryBounds => 6
    | some .framebufferBounds => 7) ∧
  ∀ (s t : State) (f : Fault) (w : Word), s.fault = none → step s = .next t → t.fault = some f →
    w = wordOfBytes (s.mem.read s.pc.toNat) (s.mem.read (s.pc.toNat + 1)) →
    (f = .fetchBounds ↔ s.pc.toNat = 0x0FFF) ∧
    match f with
    | .fetchBounds => True
    | .illegalInstruction => undefinedEncoding w ∧ s.params.undefinedPolicy = .fault
    | .stackUnderflow => decodeWord w = .ok .ret
    | .stackOverflow => ∃ nnn, decodeWord w = .ok (.call nnn)
    | .keyIndexBounds => ∃ x, (decodeWord w = .ok (.skp x) ∨ decodeWord w = .ok (.sknp x)) ∧ 16 ≤ (s.reg x).toNat
    | .memoryBounds => ∃ x y n, decodeWord w = .ok (.drw x y n) ∧ 0x0FFF < s.I.toNat + n.val
    | .framebufferBounds => ∃ x y n, decodeWord w = .ok (.drw x y n) ∧ s.I.toNat + n.val ≤ 0x0FFF ∧
        s.params.drawEdge = .fault ∧ s.spriteLeavesScreen x y n

/-! ## Encoding -/

/-- Decoding undoes encoding, every operand at every value, and eats exactly two bytes. -/
def Obligations.DecodeOfEncodeIsIdentity : Prop :=
  ∀ (i : Instr) (rest : List Byte), i.wf = true →
    decodeWord (encode i) = .ok i ∧ decode (encodeBytes i ++ rest) = .ok (i, rest)

/-- Each word that decodes is the word of its instruction, and decoding gives only well-formed instructions. -/
def Obligations.EncodeOfDecodeIsIdentity : Prop :=
  ∀ (w : Word) (i : Instr), decodeWord w = .ok i → encode i = w ∧ i.wf = true

/-- A word decodes to an instruction of a row of the opcode table exactly where it matches the row's mask and match; NOP0's
row gives way to the four literals. -/
def Obligations.DecodeFollowsTheOpcodeTable : Prop :=
  (∀ (w : Word) (i : Instr), decodeWord w = .ok i → w &&& i.row.mask = i.row.pattern) ∧
  (∀ (w : Word) (i : Instr), w &&& i.row.mask = i.row.pattern →
    (i.row.mask = 0xF000 → i.row.pattern = 0x0000 → w ∉ [0x00E0, 0x00E1, 0x00E2, 0x00EE]) →
    ∃ j, decodeWord w = .ok j ∧ j.row = i.row)

/-- R76: the decoder rejects the undefined encodings and no other word. -/
def Obligations.DecodeRejectsExactlyTheUndefined : Prop :=
  ∀ w : Word, (∃ e, decodeWord w = .error e) ↔ undefinedEncoding w

/-- Words of each family written out from R71 and R73 decode to what they stand for (sanity). -/
def Obligations.SampleWordsDecode : Prop :=
  decode [0x00, 0xE0] = .ok (.cls, []) ∧ decode [0x12, 0x08] = .ok (.jp 0x208, []) ∧
  decode [0x33, 0x07] = .ok (.seImm 3 0x07, []) ∧ decode [0x60, 0x05] = .ok (.ldImm 0 0x05, []) ∧
  decode [0x80, 0x14] = .ok (.add 0 1, []) ∧ decode [0x85, 0x0E] = .ok (.rol 5 0, []) ∧
  decode [0xA0, 0xFF] = .ok (.ldI 0x0FF, []) ∧ decode [0xD1, 0x23] = .ok (.drw 1 2 3, []) ∧
  decode [0xE2, 0xA1] = .ok (.sknp 2, []) ∧ decode [0xF3, 0x0A] = .ok (.waitkey 3, [])

/-! ## Invariants -/

/-- The reset state is a good state. -/
def Obligations.ResetMeetsInvariant : Prop := State.reset.Inv

/-- Every step keeps the machine's invariant: canonical memory and framebuffers, cells 0 or 1, I within memory, `sp` on an
entry, `pc` within 0x10FE, every stack entry a fetched CALL's address, not blocked and faulted at once. -/
def Obligations.StepKeepsInvariant : Prop :=
  ∀ s t : State, s.Inv → step s = .next t → t.Inv

/-- So does every sequence of host transactions. -/
def Obligations.TransactionsKeepInvariant : Prop :=
  ∀ (ts : List Transaction) (s t : State), s.Inv → transactAll ts s = .next t → t.Inv

/-! ## Family 0, jump and call -/

/-- R121. -/
def Obligations.ClsClearsOnlyTheWorkBuffer : Prop :=
  decodeWord 0x00E0 = .ok .cls ∧
  ∀ s : State, ∃ t, exec .cls s = .next t ∧ t.pc = s.pc + 2 ∧
    (∀ c, t.work.read c = 0) ∧ (∀ c, t.front.read c = s.front.read c) ∧ t.fbSel = s.fbSel ∧ s.sameButDisplay t []

/-- R103: HLT is the literal 0x00E1, recognised before dispatch; later steps do nothing. -/
def Obligations.HltHalts : Prop :=
  decodeWord 0x00E1 = .ok .hlt ∧ decodeFetched 0x00E1 = some .hlt ∧
  ∀ s : State, ∃ t, exec .hlt s = .next t ∧ t.pc = 0x1000 ∧ s.onlyPc t ∧ step t = .next t

/-- R122: the roles are exchanged and no cell of either buffer changes. -/
def Obligations.SwapExchangesRoles : Prop :=
  decodeWord 0x00E2 = .ok .swap ∧
  ∀ s : State, ∃ t, exec .swap s = .next t ∧ t.pc = s.pc + 2 ∧ t.fbSel = 1 - s.fbSel ∧
    (∀ b c, (t.fb b).read c = (s.fb b).read c) ∧
    (∀ c, t.work.read c = s.front.read c ∧ t.front.read c = s.work.read c) ∧ s.sameButDisplay t []

/-- R120, R203: the family-0 no-operation and the three reserved timer words only advance `pc`. -/
def Obligations.NoOperationsOnlyAdvance : Prop :=
  (∀ nnn : Addr, nnn ∉ [0x0E0, 0x0E1, 0x0E2, 0x0EE] → decodeWord (0x0#4 ++ nnn) = .ok (.nop0 nnn)) ∧
  (∀ x : Reg, decodeWord (0xF#4 ++ nib x ++ 0x07#8) = .ok (.getTimer x) ∧
    decodeWord (0xF#4 ++ nib x ++ 0x15#8) = .ok (.setTimer x) ∧
    decodeWord (0xF#4 ++ nib x ++ 0x18#8) = .ok (.setAudio x)) ∧
  ∀ (s : State) (i : Instr),
    ((∃ nnn, i = .nop0 nnn) ∨ ∃ x, i = .getTimer x ∨ i = .setTimer x ∨ i = .setAudio x) →
    ∃ t, exec i s = .next t ∧ t.pc = s.pc + 2 ∧ s.onlyPc t

/-- R123, R56, R221: RET pops the entry at sp + 1 (big-endian), sets `pc` to it plus 2; on an empty stack it raises
StackUnderflow. -/
def Obligations.RetPopsAndReturns : Prop :=
  decodeWord 0x00EE = .ok .ret ∧
  ∀ s : State,
    (s.sp ≠ 0x0FFF → 1 ≤ (s.sp + 2).toNat → (s.sp + 2).toNat ≤ 0x0FFF →
      ∃ t, exec .ret s = .next t ∧
        t.pc = wordOfBytes (s.mem.read ((s.sp + 2).toNat - 1)) (s.mem.read (s.sp + 2).toNat) + 2 ∧
        t.sp = s.sp + 2 ∧
        s.sameRegsBut t [] ∧ t.I = s.I ∧ s.sameMemory t ∧ s.sameDisplay t ∧ s.sameStatus t ∧ s.sameRandom t) ∧
    (s.sp = 0x0FFF → exec .ret s = .next (s.setFault .stackUnderflow))

/-- The model's reading of R8 and R54 for an `sp` no run reaches (log entry 5): a pop that would leave memory raises
StackUnderflow. -/
def Obligations.RetOutsideMemoryUnderflows : Prop :=
  ∀ s : State, (s.sp + 2).toNat < 1 ∨ 0x0FFF < (s.sp + 2).toNat → exec .ret s = .next (s.setFault .stackUnderflow)

/-- R125, R55, R222: CALL pushes its own address big-endian at sp - 1 and sp, moves `sp` down by 2 and jumps; where a byte
would leave memory it raises StackOverflow. -/
def Obligations.CallPushesAndJumps : Prop :=
  ∀ nnn : Addr, decodeWord (0x2#4 ++ nnn) = .ok (.call nnn) ∧
  ∀ s : State,
    (1 ≤ s.sp.toNat → s.sp.toNat ≤ 0x0FFF →
      ∃ t, exec (.call nnn) s = .next t ∧ t.pc.toNat = nnn.toNat ∧ t.sp = s.sp - 2 ∧
        t.mem.read (s.sp.toNat - 1) = s.pc.extractLsb' 8 8 ∧ t.mem.read s.sp.toNat = s.pc.extractLsb' 0 8 ∧
        (∀ a, a ≠ s.sp.toNat - 1 → a ≠ s.sp.toNat → t.mem.read a = s.mem.read a) ∧
        s.sameRegsBut t [] ∧ t.I = s.I ∧ s.sameDisplay t ∧ s.sameStatus t ∧ s.sameRandom t) ∧
    (s.sp.toNat < 1 ∨ 0x0FFF < s.sp.toNat → exec (.call nnn) s = .next (s.setFault .stackOverflow))

/-- R124, R126: JP sets `pc` to its field; JP_V0 to V0 plus its field, not masked. -/
def Obligations.JumpsSetPc : Prop :=
  ∀ nnn : Addr, decodeWord (0x1#4 ++ nnn) = .ok (.jp nnn) ∧ decodeWord (0xB#4 ++ nnn) = .ok (.jpV0 nnn) ∧
  ∀ s : State,
    (∃ t, exec (.jp nnn) s = .next t ∧ t.pc.toNat = nnn.toNat ∧ s.onlyPc t) ∧
    (∃ t, exec (.jpV0 nnn) s = .next t ∧ t.pc.toNat = (s.reg 0).toNat + nnn.toNat ∧ s.onlyPc t)

/-- A RET that finds the entry its CALL pushed returns to the instruction after the CALL, with `sp` restored. -/
def Obligations.CallThenRetReturnsAfterTheCall : Prop :=
  ∀ (s t u : State) (nnn : Addr), 1 ≤ s.sp.toNat → s.sp.toNat ≤ 0x0FFF → exec (.call nnn) s = .next t →
    u.sp = t.sp → u.mem.read (s.sp.toNat - 1) = t.mem.read (s.sp.toNat - 1) →
    u.mem.read s.sp.toNat = t.mem.read s.sp.toNat →
    ∃ v, exec .ret u = .next v ∧ v.pc = s.pc + 2 ∧ v.sp = s.sp

/-- No step changes an entry that is on the stack before and after it ("a later push lands below every entry still on the
stack", R123). -/
def Obligations.LiveStackEntriesSurviveEveryStep : Prop :=
  ∀ (s t : State) (k : Nat), s.Inv → step s = .next t → 1 ≤ k → k ≤ s.depth → k ≤ t.depth → t.entry k = s.entry k

/-- "RET always returns to its matching CALL + 2" (R123, C10): from a CALL, through any run in which its entry stays on the
stack, the RET that finds the stack back at that entry returns to the instruction after the CALL. -/
def Obligations.RetReturnsToItsMatchingCall : Prop :=
  ∀ (n : Nat) (s s1 s2 : State) (nnn : Addr), s.Inv → s.pc.toNat < 0x0FFF → exec (.call nnn) s = .next s1 →
    (∀ j, j ≤ n → ∃ u, Sys2Proof.core.run j s1 = .next u ∧ s.depth < u.depth) →
    Sys2Proof.core.run n s1 = .next s2 → s2.depth = s.depth + 1 →
    ∃ t, exec .ret s2 = .next t ∧ t.pc = s.pc + 2 ∧ t.sp = s.sp

/-! ## Skips -/

/-- R140, R141. -/
def Obligations.SkipsOnImmediate : Prop :=
  ∀ (x : Reg) (kk : Byte),
    decodeWord (0x3#4 ++ nib x ++ kk) = .ok (.seImm x kk) ∧ decodeWord (0x4#4 ++ nib x ++ kk) = .ok (.sneImm x kk) ∧
  ∀ s : State,
    (∃ t, exec (.seImm x kk) s = .next t ∧ s.onlyPc t ∧
      (s.reg x = kk → t.pc = s.pc + 4) ∧ (s.reg x ≠ kk → t.pc = s.pc + 2)) ∧
    (∃ t, exec (.sneImm x kk) s = .next t ∧ s.onlyPc t ∧
      (s.reg x ≠ kk → t.pc = s.pc + 4) ∧ (s.reg x = kk → t.pc = s.pc + 2))

/-- R142: every value of the low nibble selects this instruction. -/
def Obligations.SkipsOnRegistersEqual : Prop :=
  ∀ (x y : Reg) (n : Fin 16), decodeWord (0x5#4 ++ nib x ++ nib y ++ nib n) = .ok (.seReg x y n) ∧
  ∀ s : State, ∃ t, exec (.seReg x y n) s = .next t ∧ s.onlyPc t ∧
    (s.reg x = s.reg y → t.pc = s.pc + 4) ∧ (s.reg x ≠ s.reg y → t.pc = s.pc + 2)

/-! ## Immediate and register-register -/

/-- R150, R151: no flag is written unless V15 is the destination, and then the whole byte is. -/
def Obligations.ImmediateLoadAndAdd : Prop :=
  ∀ (x : Reg) (kk : Byte),
    decodeWord (0x6#4 ++ nib x ++ kk) = .ok (.ldImm x kk) ∧ decodeWord (0x7#4 ++ nib x ++ kk) = .ok (.addImm x kk) ∧
  ∀ s : State,
    (∃ t, exec (.ldImm x kk) s = .next t ∧ t.reg x = kk ∧ t.pc = s.pc + 2 ∧ s.onlyRegs t [x]) ∧
    (∃ t, exec (.addImm x kk) s = .next t ∧ (t.reg x).toNat = ((s.reg x).toNat + kk.toNat) % 256 ∧
      t.pc = s.pc + 2 ∧ s.onlyRegs t [x])

/-- R153 to R156, bit by bit: copy and the logic operations write Vx alone. -/
def Obligations.CopyAndLogicWriteOneRegister : Prop :=
  ∀ x y : Reg,
    decodeWord (0x8#4 ++ nib x ++ nib y ++ 0x0#4) = .ok (.mov x y) ∧
    decodeWord (0x8#4 ++ nib x ++ nib y ++ 0x1#4) = .ok (.or x y) ∧
    decodeWord (0x8#4 ++ nib x ++ nib y ++ 0x2#4) = .ok (.and x y) ∧
    decodeWord (0x8#4 ++ nib x ++ nib y ++ 0x3#4) = .ok (.xor x y) ∧
  ∀ s : State,
    (∃ t, exec (.mov x y) s = .next t ∧ t.reg x = s.reg y ∧ t.pc = s.pc + 2 ∧ s.onlyRegs t [x]) ∧
    (∃ t, exec (.or x y) s = .next t ∧ t.pc = s.pc + 2 ∧ s.onlyRegs t [x] ∧
      ∀ j, (t.reg x).getLsbD j = ((s.reg x).getLsbD j || (s.reg y).getLsbD j)) ∧
    (∃ t, exec (.and x y) s = .next t ∧ t.pc = s.pc + 2 ∧ s.onlyRegs t [x] ∧
      ∀ j, (t.reg x).getLsbD j = ((s.reg x).getLsbD j && (s.reg y).getLsbD j)) ∧
    (∃ t, exec (.xor x y) s = .next t ∧ t.pc = s.pc + 2 ∧ s.onlyRegs t [x] ∧
      ∀ j, (t.reg x).getLsbD j = ((s.reg x).getLsbD j ^^ (s.reg y).getLsbD j))

/-- R152: FlagUpdate writes C, S and Z at their bits of V15, by the rules in force, and leaves its five other bits and every
other register. -/
def Obligations.FlagUpdateWritesThreeBits : Prop :=
  ∀ (s : State) (r16 : Word), s.params.wf →
    (((s.flagUpdate r16).reg flagReg).getLsbD s.params.flagBitC.val = true ↔
      match s.params.carryRule with
      | .highByteNonzero => 256 ≤ r16.toNat
      | .literalBit0 => r16.toNat % 2 = 1) ∧
    (((s.flagUpdate r16).reg flagReg).getLsbD s.params.flagBitS.val = true ↔
      match s.params.signRule with
      | .gt7F16bit => 0x007F < r16.toNat
      | .bit7OfLowByte => r16.toNat / 128 % 2 = 1) ∧
    (((s.flagUpdate r16).reg flagReg).getLsbD s.params.flagBitZ.val = true ↔ r16.toNat % 256 = 0) ∧
    (∀ j, j < 8 → j ≠ s.params.flagBitC.val → j ≠ s.params.flagBitS.val → j ≠ s.params.flagBitZ.val →
      ((s.flagUpdate r16).reg flagReg).getLsbD j = (s.reg flagReg).getLsbD j) ∧
    s.onlyRegs (s.flagUpdate r16) [flagReg] ∧ (s.flagUpdate r16).pc = s.pc

/-- R157, R158, R160: Vx gets the low byte of the 16-bit result, then FlagUpdate overlays V15 as that write left it (D6);
nothing else but `pc` changes. FlagUpdate itself is FlagUpdateWritesThreeBits' subject. -/
def Obligations.ArithmeticWritesResultThenFlags : Prop :=
  ∀ x y : Reg,
    decodeWord (0x8#4 ++ nib x ++ nib y ++ 0x4#4) = .ok (.add x y) ∧
    decodeWord (0x8#4 ++ nib x ++ nib y ++ 0x5#4) = .ok (.sub x y) ∧
    decodeWord (0x8#4 ++ nib x ++ nib y ++ 0x7#4) = .ok (.rsub x y) ∧
  ∀ (s : State) (i : Instr) (r16 : Word),
    ((i = .add x y ∧ r16.toNat = (s.reg x).toNat + (s.reg y).toNat) ∨
     (i = .sub x y ∧ r16.toNat = (65536 + (s.reg x).toNat - (s.reg y).toNat) % 65536) ∨
     (i = .rsub x y ∧ r16.toNat = (65536 + (s.reg y).toNat - (s.reg x).toNat) % 65536)) →
    ∃ t, exec i s = .next t ∧ t.pc = s.pc + 2 ∧
      (∃ d : Byte, d.toNat = r16.toNat % 256 ∧ (x ≠ flagReg → t.reg x = d) ∧
        t.reg flagReg = ((s.setReg x d).flagUpdate r16).reg flagReg) ∧
      s.onlyRegs t [x, flagReg]

/-- The closed forms R157, R158 and R160 give for the default parameters: C is the carry or the borrow, S and Z by the
operands, the five other bits of V15 kept. -/
def Obligations.DefaultFlagsAreCarryBorrowSignZero : Prop :=
  ∀ (s t : State) (i : Instr) (x y : Reg), s.params = Params.default → x ≠ flagReg → exec i s = .next t →
    (i = .add x y →
      (t.reg x).toNat = ((s.reg x).toNat + (s.reg y).toNat) % 256 ∧
      ((t.reg flagReg).getLsbD 0 = true ↔ 0xFF < (s.reg x).toNat + (s.reg y).toNat) ∧
      ((t.reg flagReg).getLsbD 1 = true ↔ 0x7F < (s.reg x).toNat + (s.reg y).toNat) ∧
      ((t.reg flagReg).getLsbD 2 = true ↔ ((s.reg x).toNat + (s.reg y).toNat) % 256 = 0)) ∧
    (i = .sub x y →
      (t.reg x).toNat = (256 + (s.reg x).toNat - (s.reg y).toNat) % 256 ∧
      ((t.reg flagReg).getLsbD 0 = true ↔ (s.reg x).toNat < (s.reg y).toNat) ∧
      ((t.reg flagReg).getLsbD 1 = true ↔
        (s.reg x).toNat < (s.reg y).toNat ∨ 0x7F < (s.reg x).toNat - (s.reg y).toNat) ∧
      ((t.reg flagReg).getLsbD 2 = true ↔ s.reg x = s.reg y)) ∧
    (i = .rsub x y →
      (t.reg x).toNat = (256 + (s.reg y).toNat - (s.reg x).toNat) % 256 ∧
      ((t.reg flagReg).getLsbD 0 = true ↔ (s.reg y).toNat < (s.reg x).toNat) ∧
      ((t.reg flagReg).getLsbD 1 = true ↔
        (s.reg y).toNat < (s.reg x).toNat ∨ 0x7F < (s.reg y).toNat - (s.reg x).toNat) ∧
      ((t.reg flagReg).getLsbD 2 = true ↔ s.reg y = s.reg x)) ∧
    (i = .add x y ∨ i = .sub x y ∨ i = .rsub x y →
      ∀ j, 3 ≤ j → j < 8 → (t.reg flagReg).getLsbD j = (s.reg flagReg).getLsbD j)

/-- R159, R161: the rotates, bit by bit; Vy's field is not read and no flag changes. -/
def Obligations.RotatesMoveBitsAround : Prop :=
  ∀ x y : Reg,
    decodeWord (0x8#4 ++ nib x ++ nib y ++ 0x6#4) = .ok (.ror x y) ∧
    decodeWord (0x8#4 ++ nib x ++ nib y ++ 0xE#4) = .ok (.rol x y) ∧
  ∀ s : State,
    (∃ t, exec (.ror x y) s = .next t ∧ t.pc = s.pc + 2 ∧ s.onlyRegs t [x] ∧
      ∀ j, j < 8 → (t.reg x).getLsbD j = (s.reg x).getLsbD ((j + 1) % 8)) ∧
    (∃ t, exec (.rol x y) s = .next t ∧ t.pc = s.pc + 2 ∧ s.onlyRegs t [x] ∧
      ∀ j, j < 8 → (t.reg x).getLsbD j = (s.reg x).getLsbD ((j + 7) % 8))

/-- R161's corner case "ROL undoes ROR", and the other way about: only `pc` has moved. -/
def Obligations.RotatesUndoEachOther : Prop :=
  ∀ (s t u : State) (x y z : Reg),
    (exec (.ror x y) s = .next t → exec (.rol x z) t = .next u → s.onlyPc u ∧ u.pc = s.pc + 4) ∧
    (exec (.rol x y) s = .next t → exec (.ror x z) t = .next u → s.onlyPc u ∧ u.pc = s.pc + 4)

/-- Vx gets the sampled byte under the mask, for WHATEVER byte the environment gives (43_alu.md, RND). That the sampled byte
is the one the host supplied next, else the free source's, is the model's choice, DESIGN CHOICE of log entry 3. -/
def Obligations.RndMasksTheSampledByte : Prop :=
  ∀ (x : Reg) (kk : Byte), decodeWord (0xC#4 ++ nib x ++ kk) = .ok (.rnd x kk) ∧
  ∀ s : State,
    (∃ t, exec (.rnd x kk) s = .next t ∧ t.reg x = s.rndByte &&& kk ∧ t.pc = s.pc + 2 ∧
      s.sameRegsBut t [x] ∧ t.I = s.I ∧ t.sp = s.sp ∧ s.sameMemory t ∧ s.sameDisplay t ∧ s.sameStatus t) ∧
    (∀ b rest, s.rndPending = b :: rest → s.rndByte = b)

/-- The model's form of "sampled afresh for this step" (log entry 3): each supplied byte is used by one RND, in order, and
then each number of the free source once. -/
def Obligations.RndUsesEachSampleOnce : Prop :=
  ∀ (s t u : State) (x y : Reg) (k1 k2 : Byte), exec (.rnd x k1) s = .next t → exec (.rnd y k2) t = .next u →
    (∀ b1 b2 rest, s.rndPending = b1 :: b2 :: rest →
      t.reg x = b1 &&& k1 ∧ u.reg y = b2 &&& k2 ∧ u.rndPending = rest ∧ u.rndCount = s.rndCount) ∧
    (s.rndPending = [] → t.reg x = Config.freeByte s.rndCount &&& k1 ∧
      u.reg y = Config.freeByte (s.rndCount + 1) &&& k2 ∧ u.rndCount = s.rndCount + 2 ∧ u.rndPending = [])

/-! ## Pointer and draw -/

/-- R180, R204. -/
def Obligations.PointerSetAndAdd : Prop :=
  (∀ nnn : Addr, decodeWord (0xA#4 ++ nnn) = .ok (.ldI nnn)) ∧
  (∀ x : Reg, decodeWord (0xF#4 ++ nib x ++ 0x1E#8) = .ok (.addI x)) ∧
  ∀ (s : State) (nnn : Addr) (x : Reg),
    (∃ t, exec (.ldI nnn) s = .next t ∧ t.I.toNat = nnn.toNat ∧ t.pc = s.pc + 2 ∧
      s.sameRegsBut t [] ∧ t.sp = s.sp ∧ s.sameMemory t ∧ s.sameDisplay t ∧ s.sameStatus t ∧ s.sameRandom t) ∧
    (∃ t, exec (.addI x) s = .next t ∧ t.I.toNat = (s.I.toNat + (s.reg x).toNat) % 4096 ∧ t.pc = s.pc + 2 ∧
      s.sameRegsBut t [] ∧ t.sp = s.sp ∧ s.sameMemory t ∧ s.sameDisplay t ∧ s.sameStatus t ∧ s.sameRandom t)

/-- R181 to R184, R226, R227: DRW toggles exactly the work cells its sprite covers; a sprite byte outside memory is
MemoryBounds, and a set bit off screen under DRAW_EDGE = fault is FramebufferBounds, before any cell changes. -/
def Obligations.DrwTogglesTheCoveredCells : Prop :=
  ∀ (x y : Reg) (n : Fin 16), decodeWord (0xD#4 ++ nib x ++ nib y ++ nib n) = .ok (.drw x y n) ∧
  ∀ s : State,
    (s.I.toNat + n.val ≤ 0x0FFF → (s.params.drawEdge = .fault → ¬ s.spriteLeavesScreen x y n) →
      ∃ t, exec (.drw x y n) s = .next t ∧ t.pc = s.pc + 2 ∧
        (∀ c, s.spriteCovers x y n c → t.work.read c = s.work.read c ^^^ 1) ∧
        (∀ c, ¬ s.spriteCovers x y n c → t.work.read c = s.work.read c) ∧
        (∀ c, t.front.read c = s.front.read c) ∧ t.fbSel = s.fbSel ∧ s.sameButDisplay t []) ∧
    (0x0FFF < s.I.toNat + n.val → exec (.drw x y n) s = .next (s.setFault .memoryBounds)) ∧
    (s.I.toNat + n.val ≤ 0x0FFF → s.params.drawEdge = .fault → s.spriteLeavesScreen x y n →
      exec (.drw x y n) s = .next (s.setFault .framebufferBounds))

/-- R181's corner case: drawing the same sprite twice at the same place restores the work buffer, under every parameter. -/
def Obligations.DrawingTwiceRestores : Prop :=
  ∀ (s t u : State) (x y : Reg) (n : Fin 16), exec (.drw x y n) s = .next t → exec (.drw x y n) t = .next u →
    s.sameDisplay u

/-- "Under every parameter value the cells of one DRW are distinct" (R181), and each is a cell of the framebuffer. -/
def Obligations.DrwCellsAreDistinctAndOnScreen : Prop :=
  ∀ (s : State) (x y : Reg) (n : Fin 16) (cells : List Nat), s.drawCells x y n = .ok cells →
    cells.Nodup ∧ ∀ c ∈ cells, c < 2048

/-! ## Keys -/

/-- R200, R201, R224. -/
def Obligations.KeySkips : Prop :=
  ∀ x : Reg,
    decodeWord (0xE#4 ++ nib x ++ 0x9E#8) = .ok (.skp x) ∧ decodeWord (0xE#4 ++ nib x ++ 0xA1#8) = .ok (.sknp x) ∧
  ∀ s : State,
    (∀ k : Fin 16, (s.reg x).toNat = k.val →
      (∃ t, exec (.skp x) s = .next t ∧ s.onlyPc t ∧
        (s.keys.get k = true → t.pc = s.pc + 4) ∧ (s.keys.get k = false → t.pc = s.pc + 2)) ∧
      (∃ t, exec (.sknp x) s = .next t ∧ s.onlyPc t ∧
        (s.keys.get k = false → t.pc = s.pc + 4) ∧ (s.keys.get k = true → t.pc = s.pc + 2))) ∧
    (16 ≤ (s.reg x).toNat → exec (.skp x) s = .next (s.setFault .keyIndexBounds) ∧
      exec (.sknp x) s = .next (s.setFault .keyIndexBounds))

/-- R202: WAITKEY records its register and advances; no register is written and steps then do nothing. -/
def Obligations.WaitkeyBlocks : Prop :=
  ∀ x : Reg, decodeWord (0xF#4 ++ nib x ++ 0x0A#8) = .ok (.waitkey x) ∧
  ∀ s : State, ∃ t, exec (.waitkey x) s = .next t ∧ t.wait = some x ∧ t.pc = s.pc + 2 ∧ step t = .next t ∧
    s.sameRegsBut t [] ∧ t.I = s.I ∧ t.sp = s.sp ∧ s.sameMemory t ∧ s.sameDisplay t ∧
    t.keys = s.keys ∧ t.fault = s.fault ∧ t.params = s.params ∧ s.sameRandom t

/-- R205: `receive_input(k)`, k in 0..15, delivers to the awaited register and clears the slot, or does nothing. -/
def Obligations.ReceiveInputDelivers : Prop :=
  ∀ (s : State) (k : Nat), k < 16 →
    (s.wait = none → transact (.receiveInput k) s = .next s) ∧
    (∀ r, s.wait = some r → ∃ t, transact (.receiveInput k) s = .next t ∧ (t.reg r).toNat = k ∧ t.wait = none ∧
      t.pc = s.pc ∧ s.sameRegsBut t [r] ∧ t.I = s.I ∧ t.sp = s.sp ∧ s.sameMemory t ∧ s.sameDisplay t ∧
      t.keys = s.keys ∧ t.fault = s.fault ∧ t.params = s.params ∧ s.sameRandom t)

/-- `set_key(k, b)`, k in 0..15, writes one entry of the key-state table and nothing else (R206); that it does so while
the machine is halted too is the model's choice, DESIGN CHOICE of log entry 16. -/
def Obligations.SetKeyWritesOneKey : Prop :=
  ∀ (s : State) (k : Fin 16) (b : Bool), ∃ t, transact (.setKey k.val b) s = .next t ∧ t.keys.get k = b ∧
    (∀ j, j ≠ k → t.keys.get j = s.keys.get j) ∧ t.wait = s.wait ∧ t.pc = s.pc ∧ t.fault = s.fault ∧
    s.sameRegsBut t [] ∧ t.I = s.I ∧ t.sp = s.sp ∧ s.sameMemory t ∧ s.sameDisplay t ∧ t.params = s.params ∧
    s.sameRandom t

/-- D31, D37 and log entry 6: a host call outside the contract has no move. -/
def Obligations.CallsOutsideTheContractAreRefused : Prop :=
  ∀ (s : State) (k : Nat) (b : Bool), 16 ≤ k →
    transact (.receiveInput k) s = .refused (.keyOutOfRange k) ∧ transact (.setKey k b) s = .refused (.keyOutOfRange k)

/-- R236: the blocked state ends only by delivery (or reset); through any other transactions every part of the machine but
the host's own inputs (the key table, the supplied random bytes) survives it. -/
def Obligations.BlockedMachineWaits : Prop :=
  ∀ (ts : List Transaction) (s t : State) (r : Reg), s.wait = some r →
    (∀ image, Transaction.reset image ∉ ts) → (∀ k, Transaction.receiveInput k ∉ ts) → transactAll ts s = .next t →
    t.wait = some r ∧ t.V = s.V ∧ t.pc = s.pc ∧ t.I = s.I ∧ t.sp = s.sp ∧ t.mem = s.mem ∧
      t.fb0 = s.fb0 ∧ t.fb1 = s.fb1 ∧ t.fbSel = s.fbSel ∧ t.fault = s.fault

/-! ## Whole-machine rules, over every instruction -/

/-- R21, R23: a register changes only as its instruction's destination, or V15 by a flag update. -/
def Obligations.RegistersChangeOnlyAsDestinations : Prop :=
  ∀ (i : Instr) (s t : State) (r : Reg), exec i s = .next t → t.reg r ≠ s.reg r →
    i.dest = some r ∨ (r = flagReg ∧ i.updatesFlags = true)

/-- R32: only SWAP changes the role bit; only CLS and DRW write cells, and only of the work buffer. -/
def Obligations.DisplayHasThreeWriters : Prop :=
  ∀ (i : Instr) (s t : State), exec i s = .next t →
    (i ≠ .swap → t.fbSel = s.fbSel ∧ ∀ c, t.front.read c = s.front.read c) ∧
    (i ≠ .cls → (∀ x y n, i ≠ .drw x y n) → ∀ b c, (t.fb b).read c = (s.fb b).read c) ∧
    (∀ b c, b ≠ s.fbSel → (t.fb b).read c = (s.fb b).read c)

/-- R53, R61: CALL's push is the one memory write of any instruction. -/
def Obligations.OnlyCallWritesMemory : Prop :=
  ∀ (i : Instr) (s t : State), exec i s = .next t → (∀ nnn, i ≠ .call nnn) → s.sameMemory t

/-- R26, R27, R29, R30: who writes I, `sp`, `wait` and `keys`. -/
def Obligations.ControlRegistersHaveTheirWriters : Prop :=
  ∀ (i : Instr) (s t : State), exec i s = .next t →
    (t.I ≠ s.I → (∃ nnn, i = .ldI nnn) ∨ ∃ x, i = .addI x) ∧
    (t.sp ≠ s.sp → i = .ret ∨ ∃ nnn, i = .call nnn) ∧
    (t.wait ≠ s.wait → ∃ x, i = .waitkey x) ∧
    t.keys = s.keys

/-- Log entries 1 and 3: no transaction changes the parameters, and only RND and the host's supply touch the random
bytes. -/
def Obligations.ParametersAndSupplyAreTheHosts : Prop :=
  (∀ (tr : Transaction) (s t : State), transact tr s = .next t → t.params = s.params) ∧
  (∀ (i : Instr) (s t : State), exec i s = .next t → (∀ x kk, i ≠ .rnd x kk) → s.sameRandom t)

/-- R24: no instruction reads the flags implicitly. Two states that differ in V15 alone are told apart by no instruction
that does not name V15 as an operand. -/
def Obligations.FlagsAreNeverReadImplicitly : Prop :=
  ∀ (i : Instr) (s t t' : State) (v : Byte), flagReg ∉ i.reads →
    exec i s = .next t → exec i (s.setReg flagReg v) = .next t' →
    t'.pc = t.pc ∧ t'.onlyRegs t [flagReg]

/-- R34's "no hidden state": what an instruction does to the machine depends on nothing but the machine; the display's
contents reach no register, no address and no branch. -/
def Obligations.DisplayNeverReachesTheProgram : Prop :=
  ∀ (i : Instr) (s t t' : State) (m0 m1 : Memory) (b : Fin 2),
    exec i s = .next t → exec i { s with fb0 := m0, fb1 := m1, fbSel := b } = .next t' →
    t'.pc = t.pc ∧ t.sameButDisplay t' []
end

