-- ==== Sys2Proof/Laws/Decode.lean ====
section
/-! SUPPORT. The fields of a word built from fields, and a word rebuilt from its fields, for the formats of
spec/30_encoding.md R71. -/

namespace Sys2Proof

@[simp] theorem nib_toFin (v : BitVec 4) : nib v.toFin = v := rfl

@[simp] theorem toFin_nib (x : Fin 16) : (nib x).toFin = x := rfl

theorem nib_fieldX (w : Word) : nib (fieldX w) = w.extractLsb' 8 4 := rfl

theorem nib_fieldY (w : Word) : nib (fieldY w) = w.extractLsb' 4 4 := rfl

/-! ## The bits of each format -/

theorem formatA_getLsbD (f : BitVec 4) (nnn : Addr) (i : Nat) :
    (formatA f nnn).getLsbD i = if i < 12 then nnn.getLsbD i else f.getLsbD (i - 12) :=
  BitVec.getLsbD_append

theorem formatXK_getLsbD (f : BitVec 4) (x : Reg) (kk : Byte) (i : Nat) :
    (formatXK f x kk).getLsbD i =
      if i < 8 then kk.getLsbD i else if i - 8 < 4 then (nib x).getLsbD (i - 8) else f.getLsbD (i - 8 - 4) := by
  have h : (formatXK f x kk).getLsbD i = (f ++ nib x ++ kk).getLsbD i := rfl
  rw [h, BitVec.getLsbD_append, BitVec.getLsbD_append]

theorem formatXY_getLsbD (f : BitVec 4) (x y : Reg) (n : BitVec 4) (i : Nat) :
    (formatXY f x y n).getLsbD i =
      if i < 4 then n.getLsbD i
      else if i - 4 < 4 then (nib y).getLsbD (i - 4)
      else if i - 4 - 4 < 4 then (nib x).getLsbD (i - 4 - 4) else f.getLsbD (i - 4 - 4 - 4) := by
  have h : (formatXY f x y n).getLsbD i = (f ++ nib x ++ nib y ++ n).getLsbD i := rfl
  rw [h, BitVec.getLsbD_append, BitVec.getLsbD_append, BitVec.getLsbD_append]

/-- A field of `k` bits at bit `lo`, bit by bit. -/
theorem extract_eq (w : Word) (lo k : Nat) (v : BitVec k) (h : ∀ i, i < k → w.getLsbD (lo + i) = v.getLsbD i) :
    w.extractLsb' lo k = v := by
  ext i hi
  rw [BitVec.getElem_extractLsb', h i hi, BitVec.getLsbD_eq_getElem hi]

/-! ## Format A -/

@[simp] theorem fieldF_formatA (f : BitVec 4) (nnn : Addr) : fieldF (formatA f nnn) = f := by
  refine extract_eq _ _ _ _ fun i hi => ?_
  rw [formatA_getLsbD]
  split_ifs <;> first | omega | (congr 1; omega)

@[simp] theorem fieldNNN_formatA (f : BitVec 4) (nnn : Addr) : fieldNNN (formatA f nnn) = nnn := by
  refine extract_eq _ _ _ _ fun i hi => ?_
  rw [formatA_getLsbD]
  split_ifs <;> first | omega | (congr 1; omega)

theorem formatA_fields (w : Word) : formatA (fieldF w) (fieldNNN w) = w := by
  unfold fieldF fieldNNN formatA
  ext i hi
  simp only [BitVec.getElem_append, BitVec.getElem_extractLsb']
  split
  · simp [BitVec.getLsbD_eq_getElem hi]
  · rw [show 12 + (i - 12) = i by omega, BitVec.getLsbD_eq_getElem hi]

/-! ## Formats XK and XS -/

@[simp] theorem fieldF_formatXK (f : BitVec 4) (x : Reg) (kk : Byte) : fieldF (formatXK f x kk) = f := by
  refine extract_eq _ _ _ _ fun i hi => ?_
  rw [formatXK_getLsbD]
  split_ifs <;> first | omega | (congr 1; omega)

@[simp] theorem fieldX_formatXK (f : BitVec 4) (x : Reg) (kk : Byte) : fieldX (formatXK f x kk) = x := by
  have h : (formatXK f x kk).extractLsb' 8 4 = nib x := by
    refine extract_eq _ _ _ _ fun i hi => ?_
    rw [formatXK_getLsbD]
    split_ifs <;> first | omega | (congr 1; omega)
  rw [fieldX, h, toFin_nib]

@[simp] theorem fieldKK_formatXK (f : BitVec 4) (x : Reg) (kk : Byte) : fieldKK (formatXK f x kk) = kk := by
  refine extract_eq _ _ _ _ fun i hi => ?_
  rw [formatXK_getLsbD]
  split_ifs <;> first | omega | (congr 1; omega)

theorem formatXK_fields (w : Word) : formatXK (fieldF w) (fieldX w) (fieldKK w) = w := by
  unfold formatXK
  rw [nib_fieldX]
  unfold fieldF fieldKK
  ext i hi
  simp only [BitVec.getElem_append, BitVec.getElem_extractLsb']
  split
  · simp [BitVec.getLsbD_eq_getElem hi]
  · split
    · rw [show 8 + (i - 8) = i by omega, BitVec.getLsbD_eq_getElem hi]
    · rw [show 12 + (i - 8 - 4) = i by omega, BitVec.getLsbD_eq_getElem hi]

/-! ## Format XY -/

@[simp] theorem fieldF_formatXY (f : BitVec 4) (x y : Reg) (n : BitVec 4) : fieldF (formatXY f x y n) = f := by
  refine extract_eq _ _ _ _ fun i hi => ?_
  rw [formatXY_getLsbD]
  split_ifs <;> first | omega | (congr 1; omega)

@[simp] theorem fieldX_formatXY (f : BitVec 4) (x y : Reg) (n : BitVec 4) : fieldX (formatXY f x y n) = x := by
  have h : (formatXY f x y n).extractLsb' 8 4 = nib x := by
    refine extract_eq _ _ _ _ fun i hi => ?_
    rw [formatXY_getLsbD]
    split_ifs <;> first | omega | (congr 1; omega)
  rw [fieldX, h, toFin_nib]

@[simp] theorem fieldY_formatXY (f : BitVec 4) (x y : Reg) (n : BitVec 4) : fieldY (formatXY f x y n) = y := by
  have h : (formatXY f x y n).extractLsb' 4 4 = nib y := by
    refine extract_eq _ _ _ _ fun i hi => ?_
    rw [formatXY_getLsbD]
    split_ifs <;> first | omega | (congr 1; omega)
  rw [fieldY, h, toFin_nib]

@[simp] theorem fieldN_formatXY (f : BitVec 4) (x y : Reg) (n : BitVec 4) : fieldN (formatXY f x y n) = n := by
  refine extract_eq _ _ _ _ fun i hi => ?_
  rw [formatXY_getLsbD]
  split_ifs <;> first | omega | (congr 1; omega)

theorem formatXY_fields (w : Word) : formatXY (fieldF w) (fieldX w) (fieldY w) (fieldN w) = w := by
  unfold formatXY
  rw [nib_fieldX, nib_fieldY]
  unfold fieldF fieldN
  ext i hi
  simp only [BitVec.getElem_append, BitVec.getElem_extractLsb']
  split
  · simp [BitVec.getLsbD_eq_getElem hi]
  · split
    · rw [show 4 + (i - 4) = i by omega, BitVec.getLsbD_eq_getElem hi]
    · split
      · rw [show 8 + (i - 4 - 4) = i by omega, BitVec.getLsbD_eq_getElem hi]
      · rw [show 12 + (i - 4 - 4 - 4) = i by omega, BitVec.getLsbD_eq_getElem hi]

end Sys2Proof
end

