-- ==== Sys2Proof/Laws/Memory.lean ====
section
/-! SUPPORT. The laws of the byte stores: a read after a write, and that every operation keeps the canonical form, which
makes equal contents equal data. -/

namespace Sys2Proof.Machine

/-! ## Reads after writes -/

@[simp] theorem Memory.read_nil (a : Nat) : Memory.read [] a = 0 := rfl

theorem Memory.read_cons (k : Nat) (b : Byte) (m : Memory) (a : Nat) :
    Memory.read ((k, b) :: m) a = if k = a then b else Memory.read m a := rfl

theorem Memory.read_erase_same (m : Memory) (a : Nat) : Memory.read (Memory.erase a m) a = 0 := by
  induction m with
  | nil => rfl
  | cons c m ih =>
    obtain ⟨k, b⟩ := c
    by_cases h : k = a
    · simpa [Memory.erase, h] using ih
    · simpa [Memory.erase, h, Memory.read_cons] using ih

theorem Memory.read_erase_ne (m : Memory) (a c : Nat) (h : c ≠ a) :
    Memory.read (Memory.erase a m) c = Memory.read m c := by
  induction m with
  | nil => rfl
  | cons d m ih =>
    obtain ⟨k, b⟩ := d
    by_cases hk : k = a
    · have hac : a ≠ c := fun e => h e.symm
      simpa [Memory.erase, hk, Memory.read_cons, hac] using ih
    · simp [Memory.erase, hk, Memory.read_cons, ih]

theorem Memory.read_insert_ne (m : Memory) (a c : Nat) (b : Byte) (h : c ≠ a) :
    Memory.read (Memory.insert a b m) c = Memory.read m c := by
  have hac : a ≠ c := fun e => h e.symm
  induction m with
  | nil => simp [Memory.insert, Memory.read_cons, hac]
  | cons d m ih =>
    obtain ⟨k, v⟩ := d
    by_cases hk : a < k
    · simp [Memory.insert, hk, Memory.read_cons, hac]
    · simp [Memory.insert, hk, Memory.read_cons, ih]

theorem Memory.read_insert_erase_same (m : Memory) (a : Nat) (b : Byte) :
    Memory.read (Memory.insert a b (Memory.erase a m)) a = b := by
  induction m with
  | nil => simp [Memory.erase, Memory.insert, Memory.read_cons]
  | cons d m ih =>
    obtain ⟨k, v⟩ := d
    by_cases hk : k = a
    · simpa [Memory.erase, hk] using ih
    · by_cases hlt : a < k
      · simp [Memory.erase, hk, Memory.insert, hlt, Memory.read_cons]
      · simpa [Memory.erase, hk, Memory.insert, hlt, Memory.read_cons] using ih

/-- A read after a write: the written byte at the written address, every other byte as before. -/
theorem Memory.read_write (m : Memory) (a c : Nat) (b : Byte) :
    (m.write a b).read c = if c = a then b else m.read c := by
  unfold Memory.write
  by_cases hb : b = Memory.unlisted
  · by_cases hc : c = a
    · subst hc
      rw [if_pos hb, if_pos rfl, hb]
      exact Memory.read_erase_same m c
    · simpa [hb, hc] using Memory.read_erase_ne m a c hc
  · by_cases hc : c = a
    · subst hc; simpa [hb] using Memory.read_insert_erase_same m c b
    · simp [hb, hc, Memory.read_insert_ne, Memory.read_erase_ne]

@[simp] theorem Memory.read_write_same (m : Memory) (a : Nat) (b : Byte) : (m.write a b).read a = b := by
  simp [Memory.read_write]

theorem Memory.read_write_ne (m : Memory) (a c : Nat) (b : Byte) (h : c ≠ a) :
    (m.write a b).read c = m.read c := by
  simp [Memory.read_write, h]

/-! ## The canonical form is kept -/

theorem Memory.mem_erase (m : Memory) (a : Nat) (c : Host.Cell) :
    c ∈ Memory.erase a m ↔ c ∈ m ∧ c.1 ≠ a := by
  induction m with
  | nil => simp [Memory.erase]
  | cons d m ih =>
    obtain ⟨k, v⟩ := d
    by_cases hk : k = a
    · simp only [Memory.erase, hk, if_true, ih, List.mem_cons]
      constructor
      · exact fun h => ⟨.inr h.1, h.2⟩
      · rintro ⟨h | h, hne⟩
        · exact absurd (by rw [h]) hne
        · exact ⟨h, hne⟩
    · simp only [Memory.erase, hk, if_false, ih, List.mem_cons]
      constructor
      · rintro (h | h)
        · exact ⟨.inl h, by rw [h]; exact hk⟩
        · exact ⟨.inr h.1, h.2⟩
      · rintro ⟨h | h, hne⟩
        · exact .inl h
        · exact .inr ⟨h, hne⟩

theorem Memory.mem_insert (m : Memory) (a : Nat) (b : Byte) (c : Host.Cell) :
    c ∈ Memory.insert a b m ↔ c = (a, b) ∨ c ∈ m := by
  induction m with
  | nil => simp [Memory.insert]
  | cons d m ih =>
    obtain ⟨k, v⟩ := d
    by_cases hk : a < k
    · simp [Memory.insert, hk]
    · simp only [Memory.insert, hk, if_false, List.mem_cons, ih]
      tauto

theorem Memory.erase_sorted (m : Memory) (a : Nat) (h : m.Pairwise fun c d => c.1 < d.1) :
    (Memory.erase a m).Pairwise fun c d => c.1 < d.1 := by
  induction m with
  | nil => exact h
  | cons d m ih =>
    obtain ⟨k, v⟩ := d
    rw [List.pairwise_cons] at h
    by_cases hk : k = a
    · simpa [Memory.erase, hk] using ih h.2
    · simp only [Memory.erase, hk, if_false, List.pairwise_cons]
      exact ⟨fun c hc => h.1 c ((Memory.mem_erase m a c).1 hc).1, ih h.2⟩

theorem Memory.insert_sorted (m : Memory) (a : Nat) (b : Byte) (hne : ∀ c ∈ m, c.1 ≠ a)
    (h : m.Pairwise fun c d => c.1 < d.1) :
    (Memory.insert a b m).Pairwise fun c d => c.1 < d.1 := by
  induction m with
  | nil => simp [Memory.insert]
  | cons d m ih =>
    obtain ⟨k, v⟩ := d
    have h' := List.pairwise_cons.1 h
    by_cases hk : a < k
    · simp only [Memory.insert, hk, if_true, List.pairwise_cons]
      refine ⟨fun c hc => ?_, h'⟩
      rcases List.mem_cons.1 hc with rfl | hc
      · exact hk
      · exact lt_trans hk (h'.1 c hc)
    · simp only [Memory.insert, hk, if_false, List.pairwise_cons]
      refine ⟨fun c hc => ?_, ih (fun c hc => hne c (List.mem_cons_of_mem _ hc)) h'.2⟩
      rcases (Memory.mem_insert m a b c).1 hc with rfl | hc
      · have := hne (k, v) List.mem_cons_self
        simp only at this ⊢
        omega
      · exact h'.1 c hc

theorem Memory.write_wf (m : Memory) (a : Nat) (b : Byte) (h : m.wf) : (m.write a b).wf := by
  unfold Memory.write
  have hs := Memory.erase_sorted m a h.1
  have hv : ∀ c ∈ Memory.erase a m, c.2 ≠ Memory.unlisted := fun c hc => h.2 c ((Memory.mem_erase m a c).1 hc).1
  split
  · exact ⟨hs, hv⟩
  · rename_i hb
    refine ⟨Memory.insert_sorted _ a b (fun c hc => ((Memory.mem_erase m a c).1 hc).2) hs, fun c hc => ?_⟩
    rcases (Memory.mem_insert _ a b c).1 hc with rfl | hc
    · exact hb
    · exact hv c hc

theorem Memory.write_within (n : Nat) (m : Memory) (a : Nat) (b : Byte) (ha : a < n) (h : m.within n) :
    (m.write a b).within n := by
  unfold Memory.write
  intro c hc
  split at hc
  · exact h c ((Memory.mem_erase m a c).1 hc).1
  · rcases (Memory.mem_insert _ a b c).1 hc with rfl | hc
    · exact ha
    · exact h c ((Memory.mem_erase m a c).1 hc).1

/-- A store lists nothing at an address every listed one lies above. -/
theorem Memory.read_below (m : Memory) (a : Nat) (h : ∀ c ∈ m, a < c.1) : m.read a = 0 := by
  induction m with
  | nil => rfl
  | cons d m ih =>
    obtain ⟨k, v⟩ := d
    have hk : k ≠ a := by
      have := h (k, v) List.mem_cons_self
      simp only at this
      omega
    simpa [Memory.read_cons, hk] using ih fun c hc => h c (List.mem_cons_of_mem _ hc)

/-- Canonical stores with the same contents are the same list. -/
theorem Memory.ext_of_wf (m m' : Memory) (h : m.wf) (h' : m'.wf) (hr : ∀ a, m.read a = m'.read a) : m = m' := by
  induction m generalizing m' with
  | nil =>
    cases m' with
    | nil => rfl
    | cons d m' =>
      obtain ⟨k, v⟩ := d
      have hv := h'.2 (k, v) List.mem_cons_self
      have := hr k
      simp [Memory.read_cons] at this
      exact absurd this.symm hv
  | cons d m ih =>
    obtain ⟨k, v⟩ := d
    have hs := List.pairwise_cons.1 h.1
    have hv := h.2 (k, v) List.mem_cons_self
    cases m' with
    | nil =>
      have := hr k
      simp [Memory.read_cons] at this
      exact absurd this hv
    | cons d' m' =>
      obtain ⟨k', v'⟩ := d'
      have hs' := List.pairwise_cons.1 h'.1
      have hv' := h'.2 (k', v') List.mem_cons_self
      have hk : k = k' := by
        rcases lt_trichotomy k k' with hlt | heq | hgt
        · have e := hr k
          have hne : k' ≠ k := by omega
          rw [Memory.read_cons, Memory.read_cons, if_pos rfl, if_neg hne,
            Memory.read_below m' k fun c hc => lt_trans hlt (hs'.1 c hc)] at e
          exact absurd e hv
        · exact heq
        · have e := hr k'
          have hne : k ≠ k' := by omega
          rw [Memory.read_cons, Memory.read_cons, if_pos rfl, if_neg hne,
            Memory.read_below m k' fun c hc => lt_trans hgt (hs.1 c hc)] at e
          exact absurd e.symm hv'
      subst hk
      have hvv : v = v' := by simpa [Memory.read_cons] using hr k
      subst hvv
      have hrest : ∀ a, Memory.read m a = Memory.read m' a := by
        intro a
        by_cases ha : k = a
        · subst ha
          rw [Memory.read_below m k hs.1, Memory.read_below m' k hs'.1]
        · simpa [Memory.read_cons, ha] using hr a
      rw [ih m' ⟨hs.2, fun c hc => h.2 c (List.mem_cons_of_mem _ hc)⟩
        ⟨hs'.2, fun c hc => h'.2 c (List.mem_cons_of_mem _ hc)⟩ hrest]

/-! ## Loading an image -/

theorem Memory.mem_load (bs : List Byte) (a : Nat) (c : Host.Cell) (hc : c ∈ Memory.load a bs) :
    a ≤ c.1 ∧ c.1 < a + bs.length ∧ c.2 ≠ Memory.unlisted := by
  induction bs generalizing a with
  | nil => simp [Memory.load] at hc
  | cons b bs ih =>
    unfold Memory.load at hc
    simp only [List.length_cons]
    split at hc
    · obtain ⟨h1, h2, h3⟩ := ih (a + 1) hc
      exact ⟨by omega, by omega, h3⟩
    · rename_i hb
      rcases List.mem_cons.1 hc with rfl | hc
      · exact ⟨le_rfl, by simp, hb⟩
      · obtain ⟨h1, h2, h3⟩ := ih (a + 1) hc
        exact ⟨by omega, by omega, h3⟩

theorem Memory.load_wf (bs : List Byte) (a : Nat) : (Memory.load a bs).wf := by
  refine ⟨?_, fun c hc => (Memory.mem_load bs a c hc).2.2⟩
  induction bs generalizing a with
  | nil => simp [Memory.load]
  | cons b bs ih =>
    unfold Memory.load
    split
    · exact ih (a + 1)
    · rw [List.pairwise_cons]
      exact ⟨fun c hc => by have := Memory.mem_load bs (a + 1) c hc; simp only; omega, ih (a + 1)⟩

theorem Memory.load_within (bs : List Byte) (a n : Nat) (h : a + bs.length ≤ n) : (Memory.load a bs).within n :=
  fun c hc => by have := Memory.mem_load bs a c hc; omega

theorem Memory.read_load (bs : List Byte) (a i : Nat) : (Memory.load a bs).read (a + i) = bs.getD i 0 := by
  induction bs generalizing a i with
  | nil => simp [Memory.load]
  | cons b bs ih =>
    cases i with
    | zero =>
      unfold Memory.load
      split
      · rename_i hb
        rw [Memory.read_below _ _ fun c hc => by have := Memory.mem_load bs (a + 1) c hc; omega]
        simpa [Memory.unlisted] using hb.symm
      · simp [Memory.read_cons]
    | succ i =>
      have e := ih (a + 1) i
      rw [show a + 1 + i = a + (i + 1) by omega] at e
      unfold Memory.load
      split
      · simpa using e
      · rw [Memory.read_cons, if_neg (by omega)]
        simpa using e

/-! ## Words (R51) -/

theorem wordOfBytes_split (v : Word) : wordOfBytes (v.extractLsb' 8 8) (v.extractLsb' 0 8) = v := by
  unfold wordOfBytes
  ext i hi
  simp only [BitVec.getElem_append, BitVec.getElem_extractLsb']
  split
  · simp [BitVec.getLsbD_eq_getElem hi]
  · rw [show 8 + (i - 8) = i by omega]
    exact BitVec.getLsbD_eq_getElem hi

theorem wordOfBytes_toNat (hi lo : Byte) : (wordOfBytes hi lo).toNat = hi.toNat * 256 + lo.toNat := by
  unfold wordOfBytes
  rw [BitVec.toNat_append, ← Nat.shiftLeft_add_eq_or_of_lt lo.isLt, Nat.shiftLeft_eq]

theorem Memory.read_writeWord (m : Memory) (a c : Nat) (v : Word) :
    (m.writeWord a v).read c =
      if c = a + 1 then v.extractLsb' 0 8 else if c = a then v.extractLsb' 8 8 else m.read c := by
  simp [Memory.writeWord, Memory.read_write]

@[simp] theorem Memory.readWord_writeWord_same (m : Memory) (a : Nat) (v : Word) :
    (m.writeWord a v).readWord a = v := by
  simp [Memory.readWord, Memory.read_writeWord, wordOfBytes_split]

theorem Memory.readWord_writeWord_disjoint (m : Memory) (a c : Nat) (v : Word) (h : c + 2 ≤ a ∨ a + 2 ≤ c) :
    (m.writeWord a v).readWord c = m.readWord c := by
  have h1 : c ≠ a + 1 := by omega
  have h2 : c ≠ a := by omega
  have h3 : c + 1 ≠ a + 1 := by omega
  have h4 : c + 1 ≠ a := by omega
  simp [Memory.readWord, Memory.read_writeWord, h2, h4, h1]

theorem Memory.writeWord_wf (m : Memory) (a : Nat) (v : Word) (h : m.wf) : (m.writeWord a v).wf :=
  Memory.write_wf _ _ _ (Memory.write_wf _ _ _ h)

theorem Memory.writeWord_within (n : Nat) (m : Memory) (a : Nat) (v : Word) (ha : a + 1 < n) (h : m.within n) :
    (m.writeWord a v).within n :=
  Memory.write_within n _ _ _ ha (Memory.write_within n _ _ _ (by omega) h)

end Sys2Proof.Machine
end

