-- ==== Sys2Proof/Laws/State.lean ====
section
/-! SUPPORT. One lemma per field per update of State, so that no proof unfolds a record update; then the reads of a register
and of a framebuffer through each update. -/

namespace Sys2Proof.Machine

variable (s : State)

/-! ### setReg -/

@[simp] theorem State.setReg_V (x : Reg) (b : Byte) : (s.setReg x b).V = s.V.set x.val b x.isLt := rfl
@[simp] theorem State.setReg_pc (x : Reg) (b : Byte) : (s.setReg x b).pc = s.pc := rfl
@[simp] theorem State.setReg_I (x : Reg) (b : Byte) : (s.setReg x b).I = s.I := rfl
@[simp] theorem State.setReg_sp (x : Reg) (b : Byte) : (s.setReg x b).sp = s.sp := rfl
@[simp] theorem State.setReg_mem (x : Reg) (b : Byte) : (s.setReg x b).mem = s.mem := rfl
@[simp] theorem State.setReg_fb0 (x : Reg) (b : Byte) : (s.setReg x b).fb0 = s.fb0 := rfl
@[simp] theorem State.setReg_fb1 (x : Reg) (b : Byte) : (s.setReg x b).fb1 = s.fb1 := rfl
@[simp] theorem State.setReg_fbSel (x : Reg) (b : Byte) : (s.setReg x b).fbSel = s.fbSel := rfl
@[simp] theorem State.setReg_keys (x : Reg) (b : Byte) : (s.setReg x b).keys = s.keys := rfl
@[simp] theorem State.setReg_wait (x : Reg) (b : Byte) : (s.setReg x b).wait = s.wait := rfl
@[simp] theorem State.setReg_fault (x : Reg) (b : Byte) : (s.setReg x b).fault = s.fault := rfl
@[simp] theorem State.setReg_params (x : Reg) (b : Byte) : (s.setReg x b).params = s.params := rfl
@[simp] theorem State.setReg_rndPending (x : Reg) (b : Byte) : (s.setReg x b).rndPending = s.rndPending := rfl
@[simp] theorem State.setReg_rndCount (x : Reg) (b : Byte) : (s.setReg x b).rndCount = s.rndCount := rfl
@[simp] theorem State.setReg_fb (x : Reg) (b : Byte) (j : Fin 2) : (s.setReg x b).fb j = s.fb j := rfl
@[simp] theorem State.setReg_work (x : Reg) (b : Byte) : (s.setReg x b).work = s.work := rfl
@[simp] theorem State.setReg_front (x : Reg) (b : Byte) : (s.setReg x b).front = s.front := rfl

/-! ### setPc -/

@[simp] theorem State.setPc_V (a : Word) : (s.setPc a).V = s.V := rfl
@[simp] theorem State.setPc_pc (a : Word) : (s.setPc a).pc = a := rfl
@[simp] theorem State.setPc_I (a : Word) : (s.setPc a).I = s.I := rfl
@[simp] theorem State.setPc_sp (a : Word) : (s.setPc a).sp = s.sp := rfl
@[simp] theorem State.setPc_mem (a : Word) : (s.setPc a).mem = s.mem := rfl
@[simp] theorem State.setPc_fb0 (a : Word) : (s.setPc a).fb0 = s.fb0 := rfl
@[simp] theorem State.setPc_fb1 (a : Word) : (s.setPc a).fb1 = s.fb1 := rfl
@[simp] theorem State.setPc_fbSel (a : Word) : (s.setPc a).fbSel = s.fbSel := rfl
@[simp] theorem State.setPc_keys (a : Word) : (s.setPc a).keys = s.keys := rfl
@[simp] theorem State.setPc_wait (a : Word) : (s.setPc a).wait = s.wait := rfl
@[simp] theorem State.setPc_fault (a : Word) : (s.setPc a).fault = s.fault := rfl
@[simp] theorem State.setPc_params (a : Word) : (s.setPc a).params = s.params := rfl
@[simp] theorem State.setPc_rndPending (a : Word) : (s.setPc a).rndPending = s.rndPending := rfl
@[simp] theorem State.setPc_rndCount (a : Word) : (s.setPc a).rndCount = s.rndCount := rfl
@[simp] theorem State.setPc_reg (a : Word) (r : Reg) : (s.setPc a).reg r = s.reg r := rfl
@[simp] theorem State.setPc_fb (a : Word) (j : Fin 2) : (s.setPc a).fb j = s.fb j := rfl
@[simp] theorem State.setPc_work (a : Word) : (s.setPc a).work = s.work := rfl
@[simp] theorem State.setPc_front (a : Word) : (s.setPc a).front = s.front := rfl

/-! ### advance -/

@[simp] theorem State.advance_V (k : Word) : (s.advance k).V = s.V := rfl
@[simp] theorem State.advance_pc (k : Word) : (s.advance k).pc = s.pc + k := rfl
@[simp] theorem State.advance_I (k : Word) : (s.advance k).I = s.I := rfl
@[simp] theorem State.advance_sp (k : Word) : (s.advance k).sp = s.sp := rfl
@[simp] theorem State.advance_mem (k : Word) : (s.advance k).mem = s.mem := rfl
@[simp] theorem State.advance_fb0 (k : Word) : (s.advance k).fb0 = s.fb0 := rfl
@[simp] theorem State.advance_fb1 (k : Word) : (s.advance k).fb1 = s.fb1 := rfl
@[simp] theorem State.advance_fbSel (k : Word) : (s.advance k).fbSel = s.fbSel := rfl
@[simp] theorem State.advance_keys (k : Word) : (s.advance k).keys = s.keys := rfl
@[simp] theorem State.advance_wait (k : Word) : (s.advance k).wait = s.wait := rfl
@[simp] theorem State.advance_fault (k : Word) : (s.advance k).fault = s.fault := rfl
@[simp] theorem State.advance_params (k : Word) : (s.advance k).params = s.params := rfl
@[simp] theorem State.advance_rndPending (k : Word) : (s.advance k).rndPending = s.rndPending := rfl
@[simp] theorem State.advance_rndCount (k : Word) : (s.advance k).rndCount = s.rndCount := rfl
@[simp] theorem State.advance_reg (k : Word) (r : Reg) : (s.advance k).reg r = s.reg r := rfl
@[simp] theorem State.advance_fb (k : Word) (j : Fin 2) : (s.advance k).fb j = s.fb j := rfl
@[simp] theorem State.advance_work (k : Word) : (s.advance k).work = s.work := rfl
@[simp] theorem State.advance_front (k : Word) : (s.advance k).front = s.front := rfl

/-! ### setI -/

@[simp] theorem State.setI_V (v : Word) : (s.setI v).V = s.V := rfl
@[simp] theorem State.setI_pc (v : Word) : (s.setI v).pc = s.pc := rfl
@[simp] theorem State.setI_I (v : Word) : (s.setI v).I = v &&& 0x0FFF := rfl
@[simp] theorem State.setI_sp (v : Word) : (s.setI v).sp = s.sp := rfl
@[simp] theorem State.setI_mem (v : Word) : (s.setI v).mem = s.mem := rfl
@[simp] theorem State.setI_fb0 (v : Word) : (s.setI v).fb0 = s.fb0 := rfl
@[simp] theorem State.setI_fb1 (v : Word) : (s.setI v).fb1 = s.fb1 := rfl
@[simp] theorem State.setI_fbSel (v : Word) : (s.setI v).fbSel = s.fbSel := rfl
@[simp] theorem State.setI_keys (v : Word) : (s.setI v).keys = s.keys := rfl
@[simp] theorem State.setI_wait (v : Word) : (s.setI v).wait = s.wait := rfl
@[simp] theorem State.setI_fault (v : Word) : (s.setI v).fault = s.fault := rfl
@[simp] theorem State.setI_params (v : Word) : (s.setI v).params = s.params := rfl
@[simp] theorem State.setI_rndPending (v : Word) : (s.setI v).rndPending = s.rndPending := rfl
@[simp] theorem State.setI_rndCount (v : Word) : (s.setI v).rndCount = s.rndCount := rfl
@[simp] theorem State.setI_reg (v : Word) (r : Reg) : (s.setI v).reg r = s.reg r := rfl
@[simp] theorem State.setI_fb (v : Word) (j : Fin 2) : (s.setI v).fb j = s.fb j := rfl
@[simp] theorem State.setI_work (v : Word) : (s.setI v).work = s.work := rfl
@[simp] theorem State.setI_front (v : Word) : (s.setI v).front = s.front := rfl

/-! ### setSp -/

@[simp] theorem State.setSp_V (a : Word) : (s.setSp a).V = s.V := rfl
@[simp] theorem State.setSp_pc (a : Word) : (s.setSp a).pc = s.pc := rfl
@[simp] theorem State.setSp_I (a : Word) : (s.setSp a).I = s.I := rfl
@[simp] theorem State.setSp_sp (a : Word) : (s.setSp a).sp = a := rfl
@[simp] theorem State.setSp_mem (a : Word) : (s.setSp a).mem = s.mem := rfl
@[simp] theorem State.setSp_fb0 (a : Word) : (s.setSp a).fb0 = s.fb0 := rfl
@[simp] theorem State.setSp_fb1 (a : Word) : (s.setSp a).fb1 = s.fb1 := rfl
@[simp] theorem State.setSp_fbSel (a : Word) : (s.setSp a).fbSel = s.fbSel := rfl
@[simp] theorem State.setSp_keys (a : Word) : (s.setSp a).keys = s.keys := rfl
@[simp] theorem State.setSp_wait (a : Word) : (s.setSp a).wait = s.wait := rfl
@[simp] theorem State.setSp_fault (a : Word) : (s.setSp a).fault = s.fault := rfl
@[simp] theorem State.setSp_params (a : Word) : (s.setSp a).params = s.params := rfl
@[simp] theorem State.setSp_rndPending (a : Word) : (s.setSp a).rndPending = s.rndPending := rfl
@[simp] theorem State.setSp_rndCount (a : Word) : (s.setSp a).rndCount = s.rndCount := rfl
@[simp] theorem State.setSp_reg (a : Word) (r : Reg) : (s.setSp a).reg r = s.reg r := rfl
@[simp] theorem State.setSp_fb (a : Word) (j : Fin 2) : (s.setSp a).fb j = s.fb j := rfl
@[simp] theorem State.setSp_work (a : Word) : (s.setSp a).work = s.work := rfl
@[simp] theorem State.setSp_front (a : Word) : (s.setSp a).front = s.front := rfl

/-! ### setMem -/

@[simp] theorem State.setMem_V (m : Memory) : (s.setMem m).V = s.V := rfl
@[simp] theorem State.setMem_pc (m : Memory) : (s.setMem m).pc = s.pc := rfl
@[simp] theorem State.setMem_I (m : Memory) : (s.setMem m).I = s.I := rfl
@[simp] theorem State.setMem_sp (m : Memory) : (s.setMem m).sp = s.sp := rfl
@[simp] theorem State.setMem_mem (m : Memory) : (s.setMem m).mem = m := rfl
@[simp] theorem State.setMem_fb0 (m : Memory) : (s.setMem m).fb0 = s.fb0 := rfl
@[simp] theorem State.setMem_fb1 (m : Memory) : (s.setMem m).fb1 = s.fb1 := rfl
@[simp] theorem State.setMem_fbSel (m : Memory) : (s.setMem m).fbSel = s.fbSel := rfl
@[simp] theorem State.setMem_keys (m : Memory) : (s.setMem m).keys = s.keys := rfl
@[simp] theorem State.setMem_wait (m : Memory) : (s.setMem m).wait = s.wait := rfl
@[simp] theorem State.setMem_fault (m : Memory) : (s.setMem m).fault = s.fault := rfl
@[simp] theorem State.setMem_params (m : Memory) : (s.setMem m).params = s.params := rfl
@[simp] theorem State.setMem_rndPending (m : Memory) : (s.setMem m).rndPending = s.rndPending := rfl
@[simp] theorem State.setMem_rndCount (m : Memory) : (s.setMem m).rndCount = s.rndCount := rfl
@[simp] theorem State.setMem_reg (m : Memory) (r : Reg) : (s.setMem m).reg r = s.reg r := rfl
@[simp] theorem State.setMem_fb (m : Memory) (j : Fin 2) : (s.setMem m).fb j = s.fb j := rfl
@[simp] theorem State.setMem_work (m : Memory) : (s.setMem m).work = s.work := rfl
@[simp] theorem State.setMem_front (m : Memory) : (s.setMem m).front = s.front := rfl

/-! ### setWait -/

@[simp] theorem State.setWait_V (w : Option Reg) : (s.setWait w).V = s.V := rfl
@[simp] theorem State.setWait_pc (w : Option Reg) : (s.setWait w).pc = s.pc := rfl
@[simp] theorem State.setWait_I (w : Option Reg) : (s.setWait w).I = s.I := rfl
@[simp] theorem State.setWait_sp (w : Option Reg) : (s.setWait w).sp = s.sp := rfl
@[simp] theorem State.setWait_mem (w : Option Reg) : (s.setWait w).mem = s.mem := rfl
@[simp] theorem State.setWait_fb0 (w : Option Reg) : (s.setWait w).fb0 = s.fb0 := rfl
@[simp] theorem State.setWait_fb1 (w : Option Reg) : (s.setWait w).fb1 = s.fb1 := rfl
@[simp] theorem State.setWait_fbSel (w : Option Reg) : (s.setWait w).fbSel = s.fbSel := rfl
@[simp] theorem State.setWait_keys (w : Option Reg) : (s.setWait w).keys = s.keys := rfl
@[simp] theorem State.setWait_wait (w : Option Reg) : (s.setWait w).wait = w := rfl
@[simp] theorem State.setWait_fault (w : Option Reg) : (s.setWait w).fault = s.fault := rfl
@[simp] theorem State.setWait_params (w : Option Reg) : (s.setWait w).params = s.params := rfl
@[simp] theorem State.setWait_rndPending (w : Option Reg) : (s.setWait w).rndPending = s.rndPending := rfl
@[simp] theorem State.setWait_rndCount (w : Option Reg) : (s.setWait w).rndCount = s.rndCount := rfl
@[simp] theorem State.setWait_reg (w : Option Reg) (r : Reg) : (s.setWait w).reg r = s.reg r := rfl
@[simp] theorem State.setWait_fb (w : Option Reg) (j : Fin 2) : (s.setWait w).fb j = s.fb j := rfl
@[simp] theorem State.setWait_work (w : Option Reg) : (s.setWait w).work = s.work := rfl
@[simp] theorem State.setWait_front (w : Option Reg) : (s.setWait w).front = s.front := rfl

/-! ### setFault -/

@[simp] theorem State.setFault_V (f : Fault) : (s.setFault f).V = s.V := rfl
@[simp] theorem State.setFault_pc (f : Fault) : (s.setFault f).pc = s.pc := rfl
@[simp] theorem State.setFault_I (f : Fault) : (s.setFault f).I = s.I := rfl
@[simp] theorem State.setFault_sp (f : Fault) : (s.setFault f).sp = s.sp := rfl
@[simp] theorem State.setFault_mem (f : Fault) : (s.setFault f).mem = s.mem := rfl
@[simp] theorem State.setFault_fb0 (f : Fault) : (s.setFault f).fb0 = s.fb0 := rfl
@[simp] theorem State.setFault_fb1 (f : Fault) : (s.setFault f).fb1 = s.fb1 := rfl
@[simp] theorem State.setFault_fbSel (f : Fault) : (s.setFault f).fbSel = s.fbSel := rfl
@[simp] theorem State.setFault_keys (f : Fault) : (s.setFault f).keys = s.keys := rfl
@[simp] theorem State.setFault_wait (f : Fault) : (s.setFault f).wait = s.wait := rfl
@[simp] theorem State.setFault_fault (f : Fault) : (s.setFault f).fault = some f := rfl
@[simp] theorem State.setFault_params (f : Fault) : (s.setFault f).params = s.params := rfl
@[simp] theorem State.setFault_rndPending (f : Fault) : (s.setFault f).rndPending = s.rndPending := rfl
@[simp] theorem State.setFault_rndCount (f : Fault) : (s.setFault f).rndCount = s.rndCount := rfl
@[simp] theorem State.setFault_reg (f : Fault) (r : Reg) : (s.setFault f).reg r = s.reg r := rfl
@[simp] theorem State.setFault_fb (f : Fault) (j : Fin 2) : (s.setFault f).fb j = s.fb j := rfl
@[simp] theorem State.setFault_work (f : Fault) : (s.setFault f).work = s.work := rfl
@[simp] theorem State.setFault_front (f : Fault) : (s.setFault f).front = s.front := rfl

/-! ### setKeyBit -/

@[simp] theorem State.setKeyBit_V (k : Fin 16) (b : Bool) : (s.setKeyBit k b).V = s.V := rfl
@[simp] theorem State.setKeyBit_pc (k : Fin 16) (b : Bool) : (s.setKeyBit k b).pc = s.pc := rfl
@[simp] theorem State.setKeyBit_I (k : Fin 16) (b : Bool) : (s.setKeyBit k b).I = s.I := rfl
@[simp] theorem State.setKeyBit_sp (k : Fin 16) (b : Bool) : (s.setKeyBit k b).sp = s.sp := rfl
@[simp] theorem State.setKeyBit_mem (k : Fin 16) (b : Bool) : (s.setKeyBit k b).mem = s.mem := rfl
@[simp] theorem State.setKeyBit_fb0 (k : Fin 16) (b : Bool) : (s.setKeyBit k b).fb0 = s.fb0 := rfl
@[simp] theorem State.setKeyBit_fb1 (k : Fin 16) (b : Bool) : (s.setKeyBit k b).fb1 = s.fb1 := rfl
@[simp] theorem State.setKeyBit_fbSel (k : Fin 16) (b : Bool) : (s.setKeyBit k b).fbSel = s.fbSel := rfl
@[simp] theorem State.setKeyBit_wait (k : Fin 16) (b : Bool) : (s.setKeyBit k b).wait = s.wait := rfl
@[simp] theorem State.setKeyBit_fault (k : Fin 16) (b : Bool) : (s.setKeyBit k b).fault = s.fault := rfl
@[simp] theorem State.setKeyBit_params (k : Fin 16) (b : Bool) : (s.setKeyBit k b).params = s.params := rfl
@[simp] theorem State.setKeyBit_rndPending (k : Fin 16) (b : Bool) : (s.setKeyBit k b).rndPending = s.rndPending := rfl
@[simp] theorem State.setKeyBit_rndCount (k : Fin 16) (b : Bool) : (s.setKeyBit k b).rndCount = s.rndCount := rfl
@[simp] theorem State.setKeyBit_reg (k : Fin 16) (b : Bool) (r : Reg) : (s.setKeyBit k b).reg r = s.reg r := rfl
@[simp] theorem State.setKeyBit_fb (k : Fin 16) (b : Bool) (j : Fin 2) : (s.setKeyBit k b).fb j = s.fb j := rfl
@[simp] theorem State.setKeyBit_work (k : Fin 16) (b : Bool) : (s.setKeyBit k b).work = s.work := rfl
@[simp] theorem State.setKeyBit_front (k : Fin 16) (b : Bool) : (s.setKeyBit k b).front = s.front := rfl

/-! ### swapRoles -/

@[simp] theorem State.swapRoles_V : (s.swapRoles).V = s.V := rfl
@[simp] theorem State.swapRoles_pc : (s.swapRoles).pc = s.pc := rfl
@[simp] theorem State.swapRoles_I : (s.swapRoles).I = s.I := rfl
@[simp] theorem State.swapRoles_sp : (s.swapRoles).sp = s.sp := rfl
@[simp] theorem State.swapRoles_mem : (s.swapRoles).mem = s.mem := rfl
@[simp] theorem State.swapRoles_fb0 : (s.swapRoles).fb0 = s.fb0 := rfl
@[simp] theorem State.swapRoles_fb1 : (s.swapRoles).fb1 = s.fb1 := rfl
@[simp] theorem State.swapRoles_fbSel : (s.swapRoles).fbSel = 1 - s.fbSel := rfl
@[simp] theorem State.swapRoles_keys : (s.swapRoles).keys = s.keys := rfl
@[simp] theorem State.swapRoles_wait : (s.swapRoles).wait = s.wait := rfl
@[simp] theorem State.swapRoles_fault : (s.swapRoles).fault = s.fault := rfl
@[simp] theorem State.swapRoles_params : (s.swapRoles).params = s.params := rfl
@[simp] theorem State.swapRoles_rndPending : (s.swapRoles).rndPending = s.rndPending := rfl
@[simp] theorem State.swapRoles_rndCount : (s.swapRoles).rndCount = s.rndCount := rfl
@[simp] theorem State.swapRoles_reg (r : Reg) : (s.swapRoles).reg r = s.reg r := rfl
@[simp] theorem State.swapRoles_fb (j : Fin 2) : (s.swapRoles).fb j = s.fb j := rfl

/-! ### supplyRnd -/

@[simp] theorem State.supplyRnd_V (b : Byte) : (s.supplyRnd b).V = s.V := rfl
@[simp] theorem State.supplyRnd_pc (b : Byte) : (s.supplyRnd b).pc = s.pc := rfl
@[simp] theorem State.supplyRnd_I (b : Byte) : (s.supplyRnd b).I = s.I := rfl
@[simp] theorem State.supplyRnd_sp (b : Byte) : (s.supplyRnd b).sp = s.sp := rfl
@[simp] theorem State.supplyRnd_mem (b : Byte) : (s.supplyRnd b).mem = s.mem := rfl
@[simp] theorem State.supplyRnd_fb0 (b : Byte) : (s.supplyRnd b).fb0 = s.fb0 := rfl
@[simp] theorem State.supplyRnd_fb1 (b : Byte) : (s.supplyRnd b).fb1 = s.fb1 := rfl
@[simp] theorem State.supplyRnd_fbSel (b : Byte) : (s.supplyRnd b).fbSel = s.fbSel := rfl
@[simp] theorem State.supplyRnd_keys (b : Byte) : (s.supplyRnd b).keys = s.keys := rfl
@[simp] theorem State.supplyRnd_wait (b : Byte) : (s.supplyRnd b).wait = s.wait := rfl
@[simp] theorem State.supplyRnd_fault (b : Byte) : (s.supplyRnd b).fault = s.fault := rfl
@[simp] theorem State.supplyRnd_params (b : Byte) : (s.supplyRnd b).params = s.params := rfl
@[simp] theorem State.supplyRnd_rndPending (b : Byte) : (s.supplyRnd b).rndPending = s.rndPending ++ [b] := rfl
@[simp] theorem State.supplyRnd_rndCount (b : Byte) : (s.supplyRnd b).rndCount = s.rndCount := rfl
@[simp] theorem State.supplyRnd_reg (b : Byte) (r : Reg) : (s.supplyRnd b).reg r = s.reg r := rfl
@[simp] theorem State.supplyRnd_fb (b : Byte) (j : Fin 2) : (s.supplyRnd b).fb j = s.fb j := rfl
@[simp] theorem State.supplyRnd_work (b : Byte) : (s.supplyRnd b).work = s.work := rfl
@[simp] theorem State.supplyRnd_front (b : Byte) : (s.supplyRnd b).front = s.front := rfl

/-! ### setWork -/

@[simp] theorem State.setWork_V (m : Memory) : (s.setWork m).V = s.V := by unfold State.setWork; split <;> rfl
@[simp] theorem State.setWork_pc (m : Memory) : (s.setWork m).pc = s.pc := by unfold State.setWork; split <;> rfl
@[simp] theorem State.setWork_I (m : Memory) : (s.setWork m).I = s.I := by unfold State.setWork; split <;> rfl
@[simp] theorem State.setWork_sp (m : Memory) : (s.setWork m).sp = s.sp := by unfold State.setWork; split <;> rfl
@[simp] theorem State.setWork_mem (m : Memory) : (s.setWork m).mem = s.mem := by unfold State.setWork; split <;> rfl
@[simp] theorem State.setWork_fbSel (m : Memory) : (s.setWork m).fbSel = s.fbSel := by unfold State.setWork; split <;> rfl
@[simp] theorem State.setWork_keys (m : Memory) : (s.setWork m).keys = s.keys := by unfold State.setWork; split <;> rfl
@[simp] theorem State.setWork_wait (m : Memory) : (s.setWork m).wait = s.wait := by unfold State.setWork; split <;> rfl
@[simp] theorem State.setWork_fault (m : Memory) : (s.setWork m).fault = s.fault := by unfold State.setWork; split <;> rfl
@[simp] theorem State.setWork_params (m : Memory) : (s.setWork m).params = s.params := by unfold State.setWork; split <;> rfl
@[simp] theorem State.setWork_rndPending (m : Memory) : (s.setWork m).rndPending = s.rndPending := by unfold State.setWork; split <;> rfl
@[simp] theorem State.setWork_rndCount (m : Memory) : (s.setWork m).rndCount = s.rndCount := by unfold State.setWork; split <;> rfl
@[simp] theorem State.setWork_reg (m : Memory) (r : Reg) : (s.setWork m).reg r = s.reg r := by unfold State.setWork; split <;> rfl

/-! ### rndSampled -/

@[simp] theorem State.rndSampled_V : (s.rndSampled).V = s.V := by unfold State.rndSampled; split <;> rfl
@[simp] theorem State.rndSampled_pc : (s.rndSampled).pc = s.pc := by unfold State.rndSampled; split <;> rfl
@[simp] theorem State.rndSampled_I : (s.rndSampled).I = s.I := by unfold State.rndSampled; split <;> rfl
@[simp] theorem State.rndSampled_sp : (s.rndSampled).sp = s.sp := by unfold State.rndSampled; split <;> rfl
@[simp] theorem State.rndSampled_mem : (s.rndSampled).mem = s.mem := by unfold State.rndSampled; split <;> rfl
@[simp] theorem State.rndSampled_fb0 : (s.rndSampled).fb0 = s.fb0 := by unfold State.rndSampled; split <;> rfl
@[simp] theorem State.rndSampled_fb1 : (s.rndSampled).fb1 = s.fb1 := by unfold State.rndSampled; split <;> rfl
@[simp] theorem State.rndSampled_fbSel : (s.rndSampled).fbSel = s.fbSel := by unfold State.rndSampled; split <;> rfl
@[simp] theorem State.rndSampled_keys : (s.rndSampled).keys = s.keys := by unfold State.rndSampled; split <;> rfl
@[simp] theorem State.rndSampled_wait : (s.rndSampled).wait = s.wait := by unfold State.rndSampled; split <;> rfl
@[simp] theorem State.rndSampled_fault : (s.rndSampled).fault = s.fault := by unfold State.rndSampled; split <;> rfl
@[simp] theorem State.rndSampled_params : (s.rndSampled).params = s.params := by unfold State.rndSampled; split <;> rfl
@[simp] theorem State.rndSampled_reg (r : Reg) : (s.rndSampled).reg r = s.reg r := by unfold State.rndSampled; split <;> rfl
@[simp] theorem State.rndSampled_fb (j : Fin 2) : (s.rndSampled).fb j = s.fb j := by unfold State.rndSampled; split <;> rfl
@[simp] theorem State.rndSampled_work : (s.rndSampled).work = s.work := by unfold State.rndSampled; split <;> rfl
@[simp] theorem State.rndSampled_front : (s.rndSampled).front = s.front := by unfold State.rndSampled; split <;> rfl

/-! ### What the changing updates give -/

@[simp] theorem State.setReg_reg_same (x : Reg) (b : Byte) : (s.setReg x b).reg x = b := by
  simp only [State.setReg, State.reg, Vector.get_eq_getElem]
  exact Vector.getElem_set_self x.isLt

theorem State.setReg_reg_ne (x r : Reg) (b : Byte) (h : r ≠ x) : (s.setReg x b).reg r = s.reg r := by
  have hne : x.val ≠ r.val := fun e => h (Fin.ext e.symm)
  simp only [State.setReg, State.reg, Vector.get_eq_getElem]
  exact Vector.getElem_set_ne x.isLt r.isLt hne

theorem State.setReg_reg (x r : Reg) (b : Byte) : (s.setReg x b).reg r = if r = x then b else s.reg r := by
  by_cases h : r = x
  · subst h; simp
  · simp [h, State.setReg_reg_ne s x r b h]

@[simp] theorem State.setKeyBit_get_same (k : Fin 16) (b : Bool) : (s.setKeyBit k b).keys.get k = b := by
  simp only [State.setKeyBit, Vector.get_eq_getElem]
  exact Vector.getElem_set_self k.isLt

theorem State.setKeyBit_get (k j : Fin 16) (b : Bool) :
    (s.setKeyBit k b).keys.get j = if j = k then b else s.keys.get j := by
  simp only [State.setKeyBit, Vector.get_eq_getElem]
  rw [Vector.getElem_set]
  by_cases h : j = k
  · simp [h]
  · have hne : k.val ≠ j.val := fun e => h (Fin.ext e.symm)
    simp [h, hne]

@[simp] theorem State.setWork_fb_work (m : Memory) : (s.setWork m).fb s.fbSel = m := by
  unfold State.setWork State.fb
  split <;> simp_all

@[simp] theorem State.setWork_work (m : Memory) : (s.setWork m).work = m := by
  simp [State.work]

theorem State.one_sub_ne (b : Fin 2) : 1 - b ≠ b := by
  revert b; decide

theorem State.one_sub_one_sub (b : Fin 2) : 1 - (1 - b) = b := by
  revert b; decide

theorem State.setWork_fb_ne (m : Memory) (b : Fin 2) (h : b ≠ s.fbSel) : (s.setWork m).fb b = s.fb b := by
  have other : ∀ c b : Fin 2, b ≠ c → (c = 0 → b = 1) ∧ (c ≠ 0 → b = 0) := by decide
  by_cases h0 : s.fbSel = 0
  · simp [State.setWork, State.fb, h0, (other _ _ h).1 h0]
  · simp [State.setWork, State.fb, h0, (other _ _ h).2 h0]

theorem State.setWork_fb (m : Memory) (b : Fin 2) :
    (s.setWork m).fb b = if b = s.fbSel then m else s.fb b := by
  by_cases h : b = s.fbSel
  · subst h; simp
  · simp [h, State.setWork_fb_ne s m b h]

@[simp] theorem State.setWork_front (m : Memory) : (s.setWork m).front = s.front := by
  simp [State.front, State.setWork_fb_ne s m _ (State.one_sub_ne s.fbSel)]

@[simp] theorem State.swapRoles_work : s.swapRoles.work = s.front := by
  simp [State.work, State.front]

@[simp] theorem State.swapRoles_front : s.swapRoles.front = s.work := by
  simp [State.work, State.front]

@[simp] theorem State.skipIf_true : s.skipIf true = s.advance 4 := rfl

@[simp] theorem State.skipIf_false : s.skipIf false = s.advance 2 := rfl

end Sys2Proof.Machine
end

