-- ==== Sys2Proof/Laws/Draw.lean ====
section
/-! SUPPORT. What toggling a list of cells does, and which cells a sprite names (spec/44_pointer_draw.md R181 to R184). -/

namespace Sys2Proof.Machine

theorem toggleCell_read (fb : Memory) (c d : Nat) :
    (toggleCell fb c).read d = if d = c then fb.read d ^^^ 1 else fb.read d := by
  unfold toggleCell
  rw [Memory.read_write]
  split
  · rename_i h; subst h; rfl
  · rfl

/-- Toggling cells that are all different toggles each of them once. -/
theorem toggleCells_read (cells : List Nat) (hd : cells.Nodup) (fb : Memory) (d : Nat) :
    (toggleCells fb cells).read d = if d ∈ cells then fb.read d ^^^ 1 else fb.read d := by
  induction cells generalizing fb with
  | nil => simp [toggleCells]
  | cons c cells ih =>
    have hd' := List.nodup_cons.1 hd
    have e : toggleCells fb (c :: cells) = toggleCells (toggleCell fb c) cells := rfl
    rw [e, ih hd'.2, toggleCell_read]
    by_cases hdc : d = c
    · subst hdc; simp [hd'.1]
    · simp [hdc]

theorem toggleCells_wf (cells : List Nat) (fb : Memory) (h : fb.wf) : (toggleCells fb cells).wf := by
  induction cells generalizing fb with
  | nil => exact h
  | cons c cells ih => exact ih _ (Memory.write_wf _ _ _ h)

theorem toggleCells_within (n : Nat) (cells : List Nat) (hc : ∀ c ∈ cells, c < n) (fb : Memory) (h : fb.within n) :
    (toggleCells fb cells).within n := by
  induction cells generalizing fb with
  | nil => exact h
  | cons c cells ih =>
    exact ih (fun d hd => hc d (List.mem_cons_of_mem _ hd)) _
      (Memory.write_within n _ _ _ (hc c List.mem_cons_self) h)

/-- Toggling keeps cells 0 or 1. -/
theorem toggleCells_pixels (cells : List Nat) (fb : Memory) (h : ∀ c, fb.read c = 0 ∨ fb.read c = 1) (d : Nat) :
    (toggleCells fb cells).read d = 0 ∨ (toggleCells fb cells).read d = 1 := by
  induction cells generalizing fb with
  | nil => exact h d
  | cons c cells ih =>
    refine ih (toggleCell fb c) fun e => ?_
    rw [toggleCell_read]
    split
    · rcases h e with h | h <;> rw [h] <;> decide
    · exact h e

/-! ## Which cells -/

theorem mem_rowColumns (order : DrawBitOrder) (x0 : Nat) (row : Byte) (col : Nat) :
    col ∈ rowColumns order x0 row ↔ ∃ b, b < 8 ∧ row.getLsbD b = true ∧ col = x0 + columnOffset order b := by
  simp only [rowColumns, List.mem_map, List.mem_filter, List.mem_range]
  constructor
  · rintro ⟨b, ⟨hb, hr⟩, rfl⟩; exact ⟨b, hb, hr, rfl⟩
  · rintro ⟨b, hb, hr, rfl⟩; exact ⟨b, ⟨hb, hr⟩, rfl⟩

/-- The targets of a sprite: row r's set bit b, at column x0 + off(b) and row y0 + r. -/
theorem mem_spriteTargets (order : DrawBitOrder) (x0 y0 : Nat) (rows : List Byte) (col rw : Nat) :
    (col, rw) ∈ spriteTargets order x0 y0 rows ↔
      ∃ r, ∃ h : r < rows.length, ∃ b, b < 8 ∧ (rows[r]'h).getLsbD b = true ∧
        col = x0 + columnOffset order b ∧ rw = y0 + r := by
  induction rows generalizing y0 with
  | nil => simp [spriteTargets]
  | cons row rows ih =>
    simp only [spriteTargets, List.mem_append, List.mem_map, Prod.mk.injEq, ih]
    constructor
    · rintro (⟨c, hc, rfl, rfl⟩ | ⟨r, h, b, hb, hr, hcol, hrw⟩)
      · obtain ⟨b, hb, hr, he⟩ := (mem_rowColumns _ _ _ _).1 hc
        exact ⟨0, by simp, b, hb, by simpa using hr, he, rfl⟩
      · exact ⟨r + 1, by simpa using h, b, hb, by simpa using hr, hcol, by omega⟩
    · rintro ⟨r, h, b, hb, hr, hcol, hrw⟩
      cases r with
      | zero => left; exact ⟨col, (mem_rowColumns _ _ _ _).2 ⟨b, hb, by simpa using hr, hcol⟩, rfl, by omega⟩
      | succ r => right; exact ⟨r, by simpa using h, b, hb, by simpa using hr, hcol, by omega⟩

@[simp] theorem columnOffset_msbFirst (b : Nat) : columnOffset .msbFirst b = 7 - b := rfl

@[simp] theorem columnOffset_referenceLiteral (b : Nat) : columnOffset .referenceLiteral b = 8 - b := rfl

theorem columnOffset_le (order : DrawBitOrder) (b : Nat) : columnOffset order b ≤ 8 := by
  cases order <;> simp only [columnOffset_msbFirst, columnOffset_referenceLiteral] <;> omega

/-- Different bits of a row have different columns, less than 8 apart. -/
theorem columnOffset_inj (order : DrawBitOrder) (b c : Nat) (hb : b < 8) (hc : c < 8)
    (h : columnOffset order b = columnOffset order c) : b = c := by
  cases order <;> simp at h <;> omega

theorem onScreen_iff (col rw : Nat) : onScreen col rw = true ↔ col < 64 ∧ rw < 32 := by
  unfold onScreen
  rw [Bool.and_eq_true]
  exact Iff.and decide_eq_true_iff decide_eq_true_iff

theorem State.spriteInMemory_iff (s : State) (n : Fin 16) : s.spriteInMemory n = true ↔ s.I.toNat + n.val < 4096 :=
  decide_eq_true_iff

theorem State.spriteRows_length (s : State) (n : Fin 16) : (s.spriteRows n).length = n.val + 1 := by
  simp [State.spriteRows]

theorem place_wrap (col rw : Nat) : place .wrap col rw = .ok (some (col % 64 + 64 * (rw % 32))) := rfl

theorem place_clip (col rw : Nat) :
    place .clip col rw = .ok (if onScreen col rw then some (col + 64 * rw) else none) := rfl

theorem place_fault (col rw : Nat) :
    place .fault col rw = if onScreen col rw then .ok (some (col + 64 * rw)) else .error .framebufferBounds := rfl

/-- Where every target can be placed, the cells are the places of the targets. -/
theorem placeAll_cases (edge : DrawEdge) (targets : List (Nat × Nat)) :
    (∃ cells, placeAll edge targets = .ok cells ∧
      (∀ p ∈ targets, ∃ o, place edge p.1 p.2 = .ok o) ∧
      ∀ c, c ∈ cells ↔ ∃ p ∈ targets, place edge p.1 p.2 = .ok (some c)) ∨
    (placeAll edge targets = .error .framebufferBounds ∧
      ∃ p ∈ targets, place edge p.1 p.2 = .error .framebufferBounds) := by
  have perr : ∀ col rw f, place edge col rw = .error f → f = .framebufferBounds := by
    intro col rw f h
    cases edge <;> simp only [place] at h
    · cases h
    · cases h
    · split at h <;> cases h; rfl
  induction targets with
  | nil => left; exact ⟨[], rfl, by simp, by simp⟩
  | cons p rest ih =>
    obtain ⟨col, rw⟩ := p
    cases hp : place edge col rw with
    | error f =>
      right
      obtain rfl := perr _ _ _ hp
      exact ⟨by simp [placeAll, hp], ⟨(col, rw), by simp, hp⟩⟩
    | ok o =>
      rcases ih with ⟨cells, hc, hall, hmem⟩ | ⟨he, p, hpm, hpe⟩
      · left
        cases o with
        | none =>
          refine ⟨cells, by simp [placeAll, hp, hc], ?_, ?_⟩
          · intro q hq
            rcases List.mem_cons.1 hq with rfl | hq
            · exact ⟨none, hp⟩
            · exact hall q hq
          · intro c
            rw [hmem]
            constructor
            · rintro ⟨q, hq, e⟩; exact ⟨q, List.mem_cons_of_mem _ hq, e⟩
            · rintro ⟨q, hq, e⟩
              rcases List.mem_cons.1 hq with rfl | hq
              · rw [hp] at e; cases e
              · exact ⟨q, hq, e⟩
        | some d =>
          refine ⟨d :: cells, by simp [placeAll, hp, hc], ?_, ?_⟩
          · intro q hq
            rcases List.mem_cons.1 hq with rfl | hq
            · exact ⟨some d, hp⟩
            · exact hall q hq
          · intro c
            rw [List.mem_cons, hmem]
            constructor
            · rintro (rfl | ⟨q, hq, e⟩)
              · exact ⟨(col, rw), by simp, hp⟩
              · exact ⟨q, List.mem_cons_of_mem _ hq, e⟩
            · rintro ⟨q, hq, e⟩
              rcases List.mem_cons.1 hq with rfl | hq
              · left; rw [hp] at e; cases e; rfl
              · right; exact ⟨q, hq, e⟩
      · right
        exact ⟨by cases o <;> simp [placeAll, hp, he], p, List.mem_cons_of_mem _ hpm, hpe⟩

end Sys2Proof.Machine
end

