-- ==== Sys2Proof/Laws/Flags.lean ====
section
/-! SUPPORT. What FlagUpdate does to each bit of the flag byte (spec/43_alu.md R152). -/

namespace Sys2Proof.Machine

/-- One bit is written, the other seven stay. -/
theorem putBit_getLsbD (v : Byte) (k : Fin 8) (b : Bool) (j : Nat) (hj : j < 8) :
    (putBit v k b).getLsbD j = if j = k.val then b else v.getLsbD j := by
  have key : ∀ (v : Byte) (k : Fin 8) (b : Bool) (j : Fin 8),
      (putBit v k b).getLsbD j.val = if j.val = k.val then b else v.getLsbD j.val := by
    intro v k b j
    have one : (1#8 <<< k.val).getLsbD j.val = decide (j.val = k.val) := by
      revert k j; decide
    have hj : j.val < 8 := j.isLt
    unfold putBit
    by_cases h : j.val = k.val
    · cases b
      · simp only [Bool.false_eq_true, if_false, BitVec.getLsbD_and, BitVec.getLsbD_not, h]
        simp
      · simp only [if_true, BitVec.getLsbD_or, h]
        simp
    · cases b
      · simp only [Bool.false_eq_true, if_false, BitVec.getLsbD_and, BitVec.getLsbD_not, one, h, hj]
        simp
      · simp only [if_true, BitVec.getLsbD_or, one, h]
        simp
  exact key v k b ⟨j, hj⟩

/-- FlagUpdate bit by bit, the last writer of a bit first: Z, S, C, and every other bit as before. -/
theorem flagByte_getLsbD (p : Params) (v : Byte) (r16 : Word) (j : Nat) (hj : j < 8) :
    (flagByte p v r16).getLsbD j =
      if j = p.flagBitZ.val then zeroOf r16
      else if j = p.flagBitS.val then signOf p.signRule r16
      else if j = p.flagBitC.val then carryOf p.carryRule r16
      else v.getLsbD j := by
  simp [flagByte, putBit_getLsbD _ _ _ j hj]

/-- ADD, SUB and RSUB write Vx and V15 and nothing else but `pc`. -/
theorem State.finishArith_eq (s : State) (x : Reg) (r16 : Word) :
    s.finishArith x r16 = (((s.setReg x (r16.extractLsb' 0 8)).setReg flagReg
      (flagByte s.params ((s.setReg x (r16.extractLsb' 0 8)).reg flagReg) r16)).advance 2) := rfl

end Sys2Proof.Machine
end

