-- ==== Sys2Proof/Laws/Ops.lean ====
section
/-! SUPPORT. One lemma per shared operation, saying once everything it can answer. -/

namespace Sys2Proof.Machine

variable {s t : State}

@[simp] theorem State.orRaise_ok (s t : State) : s.orRaise (.ok t) = .next t := rfl

@[simp] theorem State.orRaise_error (s : State) (f : Fault) : s.orRaise (.error f) = .next (s.setFault f) := rfl

@[simp] theorem State.raise_eq (s : State) (f : Fault) : s.raise f = .next (s.setFault f) := rfl

/-- An instruction that may fault ends in its own new state or in the fault on the old one. -/
theorem State.orRaise_cases (r : Except Fault State) (h : s.orRaise r = .next t) :
    r = .ok t ∨ ∃ f, r = .error f ∧ t = s.setFault f := by
  cases r with
  | ok u => left; simpa using h
  | error f => right; exact ⟨f, rfl, by simpa using h.symm⟩

theorem entryInMemory_iff (sp : Word) : entryInMemory sp = true ↔ 1 ≤ sp.toNat ∧ sp.toNat < 4096 := by
  unfold entryInMemory
  rw [Bool.and_eq_true]
  exact Iff.and decide_eq_true_iff decide_eq_true_iff

/-- Everything a push can do (R55). -/
theorem State.push_cases (s : State) (v : Word) :
    (1 ≤ s.sp.toNat ∧ s.sp.toNat < 4096 ∧
      s.push v = .ok ((s.setMem (s.mem.writeWord (s.sp.toNat - 1) v)).setSp (s.sp - 2))) ∨
    ((s.sp.toNat < 1 ∨ 4096 ≤ s.sp.toNat) ∧ s.push v = .error .stackOverflow) := by
  unfold State.push
  by_cases h : entryInMemory s.sp = true
  · have h' := (entryInMemory_iff _).1 h
    exact .inl ⟨h'.1, h'.2, by rw [if_pos h]⟩
  · have h' : ¬(1 ≤ s.sp.toNat ∧ s.sp.toNat < 4096) := fun e => h ((entryInMemory_iff _).2 e)
    exact .inr ⟨by omega, by rw [if_neg h]⟩

/-- Everything a pop can do (R56). -/
theorem State.pop_cases (s : State) :
    (s.sp ≠ 0x0FFF ∧ 1 ≤ (s.sp + 2).toNat ∧ (s.sp + 2).toNat < 4096 ∧
      s.pop = .ok (s.mem.readWord ((s.sp + 2).toNat - 1), s.setSp (s.sp + 2))) ∨
    ((s.sp = 0x0FFF ∨ (s.sp + 2).toNat < 1 ∨ 4096 ≤ (s.sp + 2).toNat) ∧ s.pop = .error .stackUnderflow) := by
  unfold State.pop
  by_cases h0 : s.sp = 0x0FFF
  · exact .inr ⟨.inl h0, by rw [if_pos h0]⟩
  · by_cases h : entryInMemory (s.sp + 2) = true
    · have h' := (entryInMemory_iff _).1 h
      exact .inl ⟨h0, h'.1, h'.2, by rw [if_neg h0, if_pos h]⟩
    · have h' : ¬(1 ≤ (s.sp + 2).toNat ∧ (s.sp + 2).toNat < 4096) := fun e => h ((entryInMemory_iff _).2 e)
      exact .inr ⟨.inr (by omega), by rw [if_neg h0, if_neg h]⟩

/-- A key query reads the key Vx names, or is out of range (R200, R224). -/
theorem State.keyPressed_cases (s : State) (x : Reg) :
    (∃ k : Fin 16, k.val = (s.reg x).toNat ∧ s.keyPressed x = .ok (s.keys.get k)) ∨
    (16 ≤ (s.reg x).toNat ∧ s.keyPressed x = .error .keyIndexBounds) := by
  by_cases h : (s.reg x).toNat < 16
  · left; exact ⟨⟨_, h⟩, rfl, by unfold State.keyPressed; rw [dif_pos h]⟩
  · right; exact ⟨by omega, by unfold State.keyPressed; rw [dif_neg h]⟩

theorem State.halted_iff (s : State) : s.halted = true ↔ 4096 ≤ s.pc.toNat :=
  decide_eq_true_iff

/-- The three conditions of a step that does nothing (R100). -/
theorem State.idle_iff (s : State) :
    s.idle = true ↔ s.fault.isSome = true ∨ s.wait.isSome = true ∨ 4096 ≤ s.pc.toNat := by
  simp only [State.idle, State.faulted, State.awaiting, Bool.or_eq_true, State.halted_iff]
  tauto

theorem State.fetch_some (s : State) (h : s.pc.toNat + 1 < 4096) : s.fetch = some (s.mem.readWord s.pc.toNat) := by
  unfold State.fetch
  rw [if_pos (by simpa [Config.memSize] using h)]

theorem State.fetch_none (s : State) (h : 4096 ≤ s.pc.toNat + 1) : s.fetch = none := by
  unfold State.fetch
  rw [if_neg (by simpa [Config.memSize] using h)]

/-- The halt literal decodes to HLT in family 0 too, so recognising it first changes nothing (R103, R105). -/
theorem decodeFetched_eq (w : Word) : decodeFetched w = (decodeWord w).toOption := by
  unfold decodeFetched
  split
  · rename_i h; subst h; rfl
  · cases decodeWord w <;> rfl

end Sys2Proof.Machine
end

