-- ==== Sys2Proof/Laws/PerInstr.lean ====
section
/-! SUPPORT. The family TableBits of LAWS.json: each instruction's word carries the fixed bits of its row of
spec/opcode_table.json. -/

namespace Sys2Proof.Laws.TableBits

/-- The encoding of an instruction is a word of its row. -/
def Statement (i : Instr) : Prop := encode i &&& i.row.mask = i.row.pattern

/-- The top nibble of a word is its family. -/
theorem and_F000 (w : Word) : w &&& 0xF000 = formatA (fieldF w) 0 := by
  apply BitVec.eq_of_getLsbD_eq
  intro i hi
  rw [BitVec.getLsbD_and, formatA_getLsbD, fieldF, BitVec.getLsbD_extractLsb']
  have hm : (0xF000 : Word).getLsbD i = decide (12 ≤ i) := by
    have : ∀ j : Fin 16, (0xF000 : Word).getLsbD j.val = decide (12 ≤ j.val) := by decide
    exact this ⟨i, hi⟩
  rw [hm]
  by_cases h : i < 12
  · simp [h]
  · rw [show 12 + (i - 12) = i by omega]
    simp [h, show i - 12 < 4 by omega, Nat.le_of_not_lt h]

/-- The top and the bottom nibble of a word. -/
theorem and_F00F (w : Word) : w &&& 0xF00F = formatXY (fieldF w) 0 0 (fieldN w) := by
  apply BitVec.eq_of_getLsbD_eq
  intro i hi
  rw [BitVec.getLsbD_and, formatXY_getLsbD, fieldF, fieldN, BitVec.getLsbD_extractLsb', BitVec.getLsbD_extractLsb']
  have hm : (0xF00F : Word).getLsbD i = decide (12 ≤ i ∨ i < 4) := by
    have : ∀ j : Fin 16, (0xF00F : Word).getLsbD j.val = decide (12 ≤ j.val ∨ j.val < 4) := by decide
    exact this ⟨i, hi⟩
  have hz : ∀ j, (nib 0).getLsbD j = false := fun j => by simp [nib, BitVec.getLsbD]
  rw [hm, hz, hz]
  split_ifs with h1 h2 h3
  · simp [h1]
  · simp [h1]; omega
  · simp [h1]; omega
  · rw [show 12 + (i - 4 - 4 - 4) = i by omega]
    simp [show 12 ≤ i by omega, show i - 4 - 4 - 4 < 4 by omega]

/-- The top nibble and the low byte of a word. -/
theorem and_F0FF (w : Word) : w &&& 0xF0FF = formatXK (fieldF w) 0 (fieldKK w) := by
  apply BitVec.eq_of_getLsbD_eq
  intro i hi
  rw [BitVec.getLsbD_and, formatXK_getLsbD, fieldF, fieldKK, BitVec.getLsbD_extractLsb', BitVec.getLsbD_extractLsb']
  have hm : (0xF0FF : Word).getLsbD i = decide (12 ≤ i ∨ i < 8) := by
    have : ∀ j : Fin 16, (0xF0FF : Word).getLsbD j.val = decide (12 ≤ j.val ∨ j.val < 8) := by decide
    exact this ⟨i, hi⟩
  have hz : ∀ j, (nib 0).getLsbD j = false := fun j => by simp [nib, BitVec.getLsbD]
  rw [hm, hz]
  split_ifs with h1 h2
  · simp [h1]
  · simp [h1]; omega
  · rw [show 12 + (i - 8 - 4) = i by omega]
    simp [show 12 ≤ i by omega, show i - 8 - 4 < 4 by omega]

theorem cls : Statement .cls := by unfold Statement; decide
theorem hlt : Statement .hlt := by unfold Statement; decide
theorem swap : Statement .swap := by unfold Statement; decide
theorem ret : Statement .ret := by unfold Statement; decide
theorem nop0 (nnn : Addr) : Statement (.nop0 nnn) := by
  simp only [Statement, encode, Instr.row, and_F000, fieldF_formatA]; decide
theorem jp (nnn : Addr) : Statement (.jp nnn) := by
  simp only [Statement, encode, Instr.row, and_F000, fieldF_formatA]; decide
theorem call (nnn : Addr) : Statement (.call nnn) := by
  simp only [Statement, encode, Instr.row, and_F000, fieldF_formatA]; decide
theorem ldI (nnn : Addr) : Statement (.ldI nnn) := by
  simp only [Statement, encode, Instr.row, and_F000, fieldF_formatA]; decide
theorem jpV0 (nnn : Addr) : Statement (.jpV0 nnn) := by
  simp only [Statement, encode, Instr.row, and_F000, fieldF_formatA]; decide
theorem seImm (x : Reg) (kk : Byte) : Statement (.seImm x kk) := by
  simp only [Statement, encode, Instr.row, and_F000, fieldF_formatXK]; decide
theorem sneImm (x : Reg) (kk : Byte) : Statement (.sneImm x kk) := by
  simp only [Statement, encode, Instr.row, and_F000, fieldF_formatXK]; decide
theorem ldImm (x : Reg) (kk : Byte) : Statement (.ldImm x kk) := by
  simp only [Statement, encode, Instr.row, and_F000, fieldF_formatXK]; decide
theorem addImm (x : Reg) (kk : Byte) : Statement (.addImm x kk) := by
  simp only [Statement, encode, Instr.row, and_F000, fieldF_formatXK]; decide
theorem rnd (x : Reg) (kk : Byte) : Statement (.rnd x kk) := by
  simp only [Statement, encode, Instr.row, and_F000, fieldF_formatXK]; decide
theorem seReg (x y : Reg) (n : Fin 16) : Statement (.seReg x y n) := by
  simp only [Statement, encode, Instr.row, and_F000, fieldF_formatXY]; decide
theorem drw (x y : Reg) (n : Fin 16) : Statement (.drw x y n) := by
  simp only [Statement, encode, Instr.row, and_F000, fieldF_formatXY]; decide
theorem mov (x y : Reg) : Statement (.mov x y) := by
  simp only [Statement, encode, Instr.row, and_F00F, fieldF_formatXY, fieldN_formatXY]; decide
theorem or (x y : Reg) : Statement (.or x y) := by
  simp only [Statement, encode, Instr.row, and_F00F, fieldF_formatXY, fieldN_formatXY]; decide
theorem and (x y : Reg) : Statement (.and x y) := by
  simp only [Statement, encode, Instr.row, and_F00F, fieldF_formatXY, fieldN_formatXY]; decide
theorem xor (x y : Reg) : Statement (.xor x y) := by
  simp only [Statement, encode, Instr.row, and_F00F, fieldF_formatXY, fieldN_formatXY]; decide
theorem add (x y : Reg) : Statement (.add x y) := by
  simp only [Statement, encode, Instr.row, and_F00F, fieldF_formatXY, fieldN_formatXY]; decide
theorem sub (x y : Reg) : Statement (.sub x y) := by
  simp only [Statement, encode, Instr.row, and_F00F, fieldF_formatXY, fieldN_formatXY]; decide
theorem ror (x y : Reg) : Statement (.ror x y) := by
  simp only [Statement, encode, Instr.row, and_F00F, fieldF_formatXY, fieldN_formatXY]; decide
theorem rsub (x y : Reg) : Statement (.rsub x y) := by
  simp only [Statement, encode, Instr.row, and_F00F, fieldF_formatXY, fieldN_formatXY]; decide
theorem rol (x y : Reg) : Statement (.rol x y) := by
  simp only [Statement, encode, Instr.row, and_F00F, fieldF_formatXY, fieldN_formatXY]; decide
theorem skp (x : Reg) : Statement (.skp x) := by
  simp only [Statement, encode, Instr.row, and_F0FF, fieldF_formatXK, fieldKK_formatXK]; decide
theorem sknp (x : Reg) : Statement (.sknp x) := by
  simp only [Statement, encode, Instr.row, and_F0FF, fieldF_formatXK, fieldKK_formatXK]; decide
theorem getTimer (x : Reg) : Statement (.getTimer x) := by
  simp only [Statement, encode, Instr.row, and_F0FF, fieldF_formatXK, fieldKK_formatXK]; decide
theorem waitkey (x : Reg) : Statement (.waitkey x) := by
  simp only [Statement, encode, Instr.row, and_F0FF, fieldF_formatXK, fieldKK_formatXK]; decide
theorem setTimer (x : Reg) : Statement (.setTimer x) := by
  simp only [Statement, encode, Instr.row, and_F0FF, fieldF_formatXK, fieldKK_formatXK]; decide
theorem setAudio (x : Reg) : Statement (.setAudio x) := by
  simp only [Statement, encode, Instr.row, and_F0FF, fieldF_formatXK, fieldKK_formatXK]; decide
theorem addI (x : Reg) : Statement (.addI x) := by
  simp only [Statement, encode, Instr.row, and_F0FF, fieldF_formatXK, fieldKK_formatXK]; decide

end Sys2Proof.Laws.TableBits
end

