-- ==== Sys2Proof/Laws/Step.lean ====
section
/-! SUPPORT. Everything one step can do, and everything one host transaction can do. -/

namespace Sys2Proof.Machine

/-- What an undefined encoding does (R106). -/
theorem execUndefined_cases (s : State) :
    (s.params.undefinedPolicy = .fault ∧ execUndefined s = .next (s.setFault .illegalInstruction)) ∨
    (s.params.undefinedPolicy = .noop ∧ execUndefined s = .next (s.advance 2)) := by
  unfold execUndefined
  cases s.params.undefinedPolicy
  · exact .inl ⟨rfl, rfl⟩
  · exact .inr ⟨rfl, rfl⟩

theorem step_idle (s : State) (h : s.idle = true) : step s = .next s := by
  unfold step
  rw [if_pos h]

theorem step_fetch (s : State) (h : s.idle = false) (hp : s.pc.toNat + 1 < 4096) :
    step s = match decodeWord (s.mem.readWord s.pc.toNat) with
      | .ok i => exec i s
      | .error _ => execUndefined s := by
  unfold step
  rw [if_neg (by simp [h]), State.fetch_some s hp]
  simp only [decodeFetched_eq]
  cases decodeWord (s.mem.readWord s.pc.toNat) <;> rfl

theorem step_fetchBounds (s : State) (h : s.idle = false) (hp : 4096 ≤ s.pc.toNat + 1) :
    step s = .next (s.setFault .fetchBounds) := by
  unfold step
  rw [if_neg (by simp [h]), State.fetch_none s hp]
  rfl

/-- Everything a step can do (R100). -/
theorem step_cases (s : State) :
    (s.idle = true ∧ step s = .next s) ∨
    (s.idle = false ∧ s.pc.toNat = 4095 ∧ step s = .next (s.setFault .fetchBounds)) ∨
    (s.idle = false ∧ s.pc.toNat < 4095 ∧
      ((∃ i, decodeWord (s.mem.readWord s.pc.toNat) = .ok i ∧ step s = exec i s) ∨
       (∃ e, decodeWord (s.mem.readWord s.pc.toNat) = .error e ∧ step s = execUndefined s))) := by
  by_cases hi : s.idle = true
  · exact .inl ⟨hi, step_idle s hi⟩
  · have hi' : s.idle = false := by simpa using hi
    have hlt : s.pc.toNat < 4096 := by
      by_contra hge
      exact hi ((State.idle_iff s).2 (.inr (.inr (by omega))))
    right
    by_cases hp : s.pc.toNat + 1 < 4096
    · right
      refine ⟨hi', by omega, ?_⟩
      have e := step_fetch s hi' hp
      cases hd : decodeWord (s.mem.readWord s.pc.toNat) with
      | ok i => left; exact ⟨i, rfl, by rw [e, hd]⟩
      | error x => right; exact ⟨x, rfl, by rw [e, hd]⟩
    · left
      exact ⟨hi', by omega, step_fetchBounds s hi' (by omega)⟩

/-- A run of no steps. -/
@[simp] theorem core_run_zero (s : State) : Sys2Proof.core.run 0 s = .next s := rfl

/-- A run whose first step answers a next state goes on from there. -/
theorem core_run_succ (k : Nat) (s t : State) (h : step s = .next t) :
    Sys2Proof.core.run (k + 1) s = Sys2Proof.core.run k t := by
  have h' : Sys2Proof.core.step s = .next t := h
  simp only [Host.Core.run, h']

/-- Everything `receive_input` can do (R205). -/
theorem State.receiveInput_cases (s : State) (k : Nat) :
    (k < 16 ∧ s.wait = none ∧ s.receiveInput k = .next s) ∨
    (k < 16 ∧ ∃ r, s.wait = some r ∧ s.receiveInput k = .next ((s.setReg r (BitVec.ofNat 8 k)).setWait none)) ∨
    (16 ≤ k ∧ s.receiveInput k = .refused (.keyOutOfRange k)) := by
  unfold State.receiveInput
  by_cases hk : k < 16
  · cases hw : s.wait with
    | none => left; simp [hk]
    | some r => right; left; exact ⟨hk, r, rfl, by simp [hk]⟩
  · right; right; simp [hk]; omega

/-- Everything `set_key` can do (R206). -/
theorem State.setKey_cases (s : State) (k : Nat) (b : Bool) :
    (∃ h : k < 16, s.setKey k b = .next (s.setKeyBit ⟨k, h⟩ b)) ∨
    (16 ≤ k ∧ s.setKey k b = .refused (.keyOutOfRange k)) := by
  unfold State.setKey
  by_cases hk : k < 16
  · left; exact ⟨hk, by rw [dif_pos hk]⟩
  · right; exact ⟨by omega, by rw [dif_neg hk]⟩

/-- Everything `reset(image)` can do (R240, D37). -/
theorem State.resetImage_cases (s : State) (image : List Byte) :
    (image.length ≤ 4096 ∧ s.resetImage image = .next { State.reset with
      mem := Memory.load 0 image, params := s.params, rndPending := s.rndPending, rndCount := s.rndCount }) ∨
    (4096 < image.length ∧ s.resetImage image = .refused (.imageTooLong image.length)) := by
  unfold State.resetImage
  by_cases h : image.length ≤ Config.memSize
  · left; exact ⟨h, by rw [if_pos h]⟩
  · right; exact ⟨Nat.lt_of_not_le h, by rw [if_neg h]⟩

end Sys2Proof.Machine
end

