-- ==== Sys2Proof/Tests/Slice0.lean ====
section
/-! SUPPORT. Tests: the well-formedness smoke, one word of every constructor written out bit by bit from
spec/30_encoding.md R71 and R73, single steps from the vectors of spec/95_test_vectors.md (their ids stand in the names),
and for each statement with hypotheses a concrete input that meets them. -/

namespace Sys2Proof.Tests

open Sys2Proof Sys2Proof.Machine

/-! ## Helpers -/

/-- Reset, with a word placed at an address that `pc` holds. -/
def at_ (pc : Word) (w : Word) : State := (State.reset.setPc pc).placeWord w

/-- Reset with other parameters, and a word placed at 0. -/
def under (p : Params) (w : Word) : State := { at_ 0 w with params := p }

/-- A test of the next state an outcome gives. -/
def gives (r : Result) (p : State → Bool) : Bool :=
  match r with
  | .next t => p t
  | .fault _ => false
  | .refused _ => false

/-- The listed cells of a framebuffer are 1 and no other is. -/
def lit (fb : Memory) (cells : List Nat) : Bool := fb == cells.map fun c => (c, (1 : Byte))

/-! ## Well-formed terms: the one check, and what it refuses (R120, R74) -/

theorem test_wf_refuses_cls_as_nop0 : Instr.wf (.nop0 0x0E0) = false := by decide
theorem test_wf_refuses_hlt_as_nop0 : Instr.wf (.nop0 0x0E1) = false := by decide
theorem test_wf_refuses_swap_as_nop0 : Instr.wf (.nop0 0x0E2) = false := by decide
theorem test_wf_refuses_ret_as_nop0 : Instr.wf (.nop0 0x0EE) = false := by decide
theorem test_wf_admits_zero_word : Instr.wf (.nop0 0x000) = true := by decide

/-! ## Decode: each row's word, bit by bit (R71, R73) -/

theorem test_decode_cls : decodeWord 0b0000000011100000 = .ok .cls := by rfl
theorem test_decode_hlt : decodeWord 0b0000000011100001 = .ok .hlt := by rfl
theorem test_decode_swap : decodeWord 0b0000000011100010 = .ok .swap := by rfl
theorem test_decode_ret : decodeWord 0b0000000011101110 = .ok .ret := by rfl
theorem test_decode_nop0 : decodeWord 0b0000000100100011 = .ok (.nop0 0x123) := by rfl
theorem test_decode_jp : decodeWord 0b0001001000001000 = .ok (.jp 0x208) := by rfl
theorem test_decode_call : decodeWord 0b0010001100000001 = .ok (.call 0x301) := by rfl
theorem test_decode_seImm : decodeWord 0b0011001100000111 = .ok (.seImm 3 0x07) := by rfl
theorem test_decode_sneImm : decodeWord 0b0100101100000001 = .ok (.sneImm 11 0x01) := by rfl
theorem test_decode_seReg : decodeWord 0b0101000100100111 = .ok (.seReg 1 2 7) := by rfl
theorem test_decode_ldImm : decodeWord 0b0110101001111111 = .ok (.ldImm 10 0x7F) := by rfl
theorem test_decode_addImm : decodeWord 0b0111001000000010 = .ok (.addImm 2 0x02) := by rfl
theorem test_decode_mov : decodeWord 0b1000000101000000 = .ok (.mov 1 4) := by rfl
theorem test_decode_or : decodeWord 0b1000000100100001 = .ok (.or 1 2) := by rfl
theorem test_decode_and : decodeWord 0b1000000100100010 = .ok (.and 1 2) := by rfl
theorem test_decode_xor : decodeWord 0b1000000100100011 = .ok (.xor 1 2) := by rfl
theorem test_decode_add : decodeWord 0b1000111100010100 = .ok (.add 15 1) := by rfl
theorem test_decode_sub : decodeWord 0b1000000100100101 = .ok (.sub 1 2) := by rfl
theorem test_decode_ror : decodeWord 0b1000010111110110 = .ok (.ror 5 15) := by rfl
theorem test_decode_rsub : decodeWord 0b1000000100100111 = .ok (.rsub 1 2) := by rfl
theorem test_decode_rol : decodeWord 0b1000010100001110 = .ok (.rol 5 0) := by rfl
theorem test_decode_ldI : decodeWord 0b1010000011111111 = .ok (.ldI 0x0FF) := by rfl
theorem test_decode_jpV0 : decodeWord 0b1011001100000000 = .ok (.jpV0 0x300) := by rfl
theorem test_decode_rnd : decodeWord 0b1100001100001111 = .ok (.rnd 3 0x0F) := by rfl
theorem test_decode_drw : decodeWord 0b1101000100100011 = .ok (.drw 1 2 3) := by rfl
theorem test_decode_skp : decodeWord 0b1110001010011110 = .ok (.skp 2) := by rfl
theorem test_decode_sknp : decodeWord 0b1110001010100001 = .ok (.sknp 2) := by rfl
theorem test_decode_getTimer : decodeWord 0b1111010000000111 = .ok (.getTimer 4) := by rfl
theorem test_decode_waitkey : decodeWord 0b1111001100001010 = .ok (.waitkey 3) := by rfl
theorem test_decode_setTimer : decodeWord 0b1111010000010101 = .ok (.setTimer 4) := by rfl
theorem test_decode_setAudio : decodeWord 0b1111010000011000 = .ok (.setAudio 4) := by rfl
theorem test_decode_addI : decodeWord 0b1111000100011110 = .ok (.addI 1) := by rfl

/-- R76's four kinds of undefined word, and fewer than two bytes, each rejected by its own name. -/
theorem test_decode_rejects :
    decodeWord 0x9123 = .error (.undefinedFamily9 0x9123) ∧ decodeWord 0x8128 = .error (.undefinedAluOp 0x8128) ∧
    decodeWord 0xE100 = .error (.undefinedKeyOp 0xE100) ∧ decodeWord 0xF1FF = .error (.undefinedSpecialOp 0xF1FF) ∧
    decode [0x12] = .error .truncated := by
  exact ⟨rfl, rfl, rfl, rfl, rfl⟩

/-- W1 and W10: bytes in memory order, the rest handed back. -/
theorem test_decode_bytes_W1_W10 :
    decode [0x60, 0x05, 0xA0, 0xFF] = .ok (.ldImm 0 0x05, [0xA0, 0xFF]) ∧
    encodeBytes (.drw 1 2 3) = [0xD1, 0x23] ∧ encodeBytes (.jp 0x002) = [0x10, 0x02] := by
  exact ⟨rfl, rfl, rfl⟩

/-- A word as the opcode table numbers it, first word only. -/
theorem test_decodeTableWord :
    decodeTableWord 16 0x8014 = some (.add 0 1) ∧ decodeTableWord 16 0x9000 = none := by
  exact ⟨rfl, rfl⟩

/-! ## Fetch, halt and steps that do nothing -/

theorem test_step_V_F1 : gives (step (at_ 0 0x00E1)) (fun t => t.pc == 0x1000 && t.halted && t.fault == none) = true := by
  decide
theorem test_step_V_F3 : step (State.reset.setPc 0x0FFF) = .next ((State.reset.setPc 0x0FFF).setFault .fetchBounds) := by
  rfl
theorem test_step_V_F4 : gives (step (at_ 0x0FFE 0x6105)) (fun t => t.reg 1 == 0x05 && t.pc == 0x1000) = true := by decide
theorem test_step_V_F5 : step (State.reset.setFault .stackUnderflow) = .next (State.reset.setFault .stackUnderflow) := by
  rfl
theorem test_step_V_F6 : step (State.reset.setWait (some 3)) = .next (State.reset.setWait (some 3)) := by rfl
theorem test_step_V_F7 : gives (step (at_ 0x011 0x6122)) (fun t => t.reg 1 == 0x22 && t.pc == 0x013) = true := by decide
theorem test_step_V_F8 :
    step (at_ 0 0x9123) = .next ((at_ 0 0x9123).setFault .illegalInstruction) ∧
    step (under { Params.default with undefinedPolicy := .noop } 0x9123) =
      .next ((under { Params.default with undefinedPolicy := .noop } 0x9123).advance 2) := by
  exact ⟨rfl, rfl⟩

/-! ## Family 0, jump, call, indexed jump -/

theorem test_nop0_V_C1 : gives (step (at_ 0x010 0x0123)) (fun t => t == (at_ 0x010 0x0123).setPc 0x012) = true := by decide
theorem test_cls_V_C3 :
    gives (step { at_ 0 0x00E0 with fb0 := [(0, 1), (70, 1)], fb1 := [(70, 1)] })
      (fun t => lit t.work [] && lit t.front [70] && t.pc == 2) = true := by decide
theorem test_swap_V_C4_C5 :
    gives (step (at_ 0 0x00E2)) (fun t => t.fbSel == 1) = true ∧
    gives (step { at_ 0 0x00E2 with fbSel := 1, fb0 := [(3, 1)] }) (fun t => t.fbSel == 0 && lit t.work [3]) = true := by
  decide
theorem test_jp_V_C6 : gives (step (at_ 0 0x1208)) (fun t => t.pc == 0x208) = true := by decide
theorem test_call_V_C8 :
    gives (step (at_ 0x204 0x2300)) (fun t => t.mem.read 0x0FFE == 0x02 && t.mem.read 0x0FFF == 0x04 &&
      t.sp == 0x0FFD && t.pc == 0x300) = true := by decide
theorem test_call_V_C11_C12 :
    gives (step ((at_ 0 0x2100).setSp 0xFFFF)) (fun t => t.fault == some .stackOverflow && t.sp == 0xFFFF) = true ∧
    gives (step ((at_ 0x0500 0x2600).setSp 1)) (fun t => t.mem.read 0 == 0x05 && t.mem.read 1 == 0 && t.sp == 0xFFFF) =
      true := by decide
theorem test_ret_V_C9 :
    gives (step (((at_ 0x300 0x00EE).setSp 0x0FFD).setMem [(0x301, 0xEE), (0x0FFE, 0x02), (0x0FFF, 0x04)]))
      (fun t => t.pc == 0x206 && t.sp == 0x0FFF) = true := by decide
theorem test_ret_V_C10 :
    gives (step (at_ 0 0x00EE)) (fun t => t.fault == some .stackUnderflow && t.pc == 0 && t.sp == 0x0FFF) = true := by
  decide
theorem test_jpV0_V_C14 : gives (step ((at_ 0 0xBFFF).setReg 0 0xFF)) (fun t => t.pc == 0x10FE && t.halted) = true := by
  decide
theorem test_jpV0_V_C13 : gives (step ((at_ 0 0xB300).setReg 0 0x10)) (fun t => t.pc == 0x310) = true := by decide

/-! ## Skips -/

theorem test_seImm_V_S1_S2 :
    gives (step ((at_ 0x010 0x3307).setReg 3 7)) (fun t => t.pc == 0x014) = true ∧
    gives (step ((at_ 0x010 0x3308).setReg 3 7)) (fun t => t.pc == 0x012) = true := by decide
theorem test_seImm_V_S10 : gives (step (at_ 0x0FFC 0x3000)) (fun t => t.pc == 0x1000 && t.fault == none) = true := by decide
theorem test_sneImm_V_S3_S4 :
    gives (step ((at_ 0x010 0x4307).setReg 3 7)) (fun t => t.pc == 0x012) = true ∧
    gives (step ((at_ 0x010 0x4300).setReg 3 7)) (fun t => t.pc == 0x014) = true := by decide
theorem test_seReg_V_S6_S7 :
    gives (step (((at_ 0x010 0x5127).setReg 1 6).setReg 2 6)) (fun t => t.pc == 0x014) = true ∧
    gives (step (((at_ 0x010 0x5120).setReg 1 6).setReg 2 7)) (fun t => t.pc == 0x012) = true := by decide

/-! ## Arithmetic, logic, flags -/

theorem test_ldImm_V_A22 : gives (step (at_ 0 0x6A7F)) (fun t => t.reg 10 == 0x7F && t.reg 15 == 0) = true := by decide
theorem test_addImm_V_A23 :
    gives (step (((at_ 0 0x7202).setReg 2 0xFF).setReg 15 0x5A)) (fun t => t.reg 2 == 1 && t.reg 15 == 0x5A) = true := by
  decide
theorem test_mov_V_A25 : gives (step ((at_ 0 0x8140).setReg 4 0x3C)) (fun t => t.reg 1 == 0x3C && t.reg 4 == 0x3C) = true := by
  decide
theorem test_or_V_A26 : gives (step (((at_ 0 0x8121).setReg 1 0xF0).setReg 2 0x0F)) (fun t => t.reg 1 == 0xFF) = true := by
  decide
theorem test_and_V_A27 :
    gives (step (((at_ 0 0x8122).setReg 1 0xF0).setReg 2 0x0F)) (fun t => t.reg 1 == 0 && t.reg 15 == 0) = true := by decide
theorem test_xor_V_A28 : gives (step (((at_ 0 0x8123).setReg 1 0xFF).setReg 2 0x0F)) (fun t => t.reg 1 == 0xF0) = true := by
  decide
theorem test_add_V_A3_A17 :
    gives (step (((at_ 0 0x8014).setReg 0 0xFF).setReg 1 1)) (fun t => t.reg 0 == 0 && t.reg 15 == 0x07) = true ∧
    gives (step ((((at_ 0 0x8014).setReg 0 0xFF).setReg 1 1).setReg 15 0xF8)) (fun t => t.reg 15 == 0xFF) = true := by decide
theorem test_add_V_A18_A19 :
    gives (step ((at_ 0 0x8F14).setReg 1 0x81)) (fun t => t.reg 15 == 0x82) = true ∧
    gives (step (((at_ 0 0x80F4).setReg 0 1).setReg 15 5)) (fun t => t.reg 0 == 6 && t.reg 15 == 0) = true := by decide
theorem test_add_other_rules_V_A3_A1 :
    gives (step (((under { Params.default with carryRule := .literalBit0 } 0x8014).setReg 0 1).setReg 1 2))
      (fun t => t.reg 15 == 0x01) = true ∧
    gives (step (((under { Params.default with signRule := .bit7OfLowByte } 0x8014).setReg 0 0xFF).setReg 1 1))
      (fun t => t.reg 15 == 0x05) = true := by decide
theorem test_sub_V_A8_A10 :
    gives (step (((at_ 0 0x8015).setReg 0 3).setReg 1 5)) (fun t => t.reg 0 == 0xFE && t.reg 15 == 0x03) = true ∧
    gives (step (((at_ 0 0x8015).setReg 0 0x90).setReg 1 0x10)) (fun t => t.reg 0 == 0x80 && t.reg 15 == 0x02) = true := by
  decide
theorem test_rsub_V_A13_A14 :
    gives (step (((at_ 0 0x8017).setReg 0 3).setReg 1 5)) (fun t => t.reg 0 == 0x02 && t.reg 15 == 0) = true ∧
    gives (step (((at_ 0 0x8017).setReg 0 5).setReg 1 3)) (fun t => t.reg 0 == 0xFE && t.reg 15 == 0x03) = true := by decide
theorem test_ror_V_A30_A32 :
    gives (step ((at_ 0 0x8506).setReg 5 0x81)) (fun t => t.reg 5 == 0xC0) = true ∧
    gives (step ((at_ 0 0x85F6).setReg 5 0x01)) (fun t => t.reg 5 == 0x80 && t.reg 15 == 0) = true := by decide
theorem test_rol_V_A31_A33 :
    gives (step ((at_ 0 0x850E).setReg 5 0x81)) (fun t => t.reg 5 == 0x03) = true ∧
    gives (step ((at_ 0 0x850E).setReg 5 0x80)) (fun t => t.reg 5 == 0x01) = true := by decide
theorem test_rnd_V_A35 :
    gives (step ((at_ 0 0xC30F).supplyRnd 0xA7)) (fun t => t.reg 3 == 0x07 && t.rndPending == []) = true := by decide
/-- V-A36: mask 0 gives 0 whatever the free source would give. -/
theorem test_rnd_V_A36 : ∃ t, step (at_ 0 0xC300) = .next t ∧ t.reg 3 = 0 := by
  exact ⟨_, rfl, BitVec.and_zero⟩

/-! ## Pointer and draw -/

/-- The start of V-D3: the 4-row box at 0x0FF, V1 = V2 = 6. -/
def box (order : DrawBitOrder) : State :=
  { (((under { Params.default with drawBitOrder := order } 0xD123).setReg 1 6).setReg 2 6).setI 0x0FF with
    mem := [(0, 0xD1), (1, 0x23), (0x0FF, 0xF0), (0x100, 0x90), (0x101, 0x90), (0x102, 0xF0)] }

/-- The start of V-D6: one row 0xFF at the lower right corner, VA = 62, VB = 31. -/
def corner (edge : DrawEdge) : State :=
  { (((under { Params.default with drawEdge := edge } 0xDAB0).setReg 10 62).setReg 11 31).setI 0x00A with
    mem := [(0, 0xDA), (1, 0xB0), (0x00A, 0xFF)] }

theorem test_ldI_V_D2 : gives (step (at_ 0 0xAFFF)) (fun t => t.I == 0xFFF) = true := by decide
theorem test_drw_V_D3_D4 :
    gives (step (box .msbFirst)) (fun t => lit t.work [390, 391, 392, 393, 454, 457, 518, 521, 582, 583, 584, 585] &&
      lit t.front []) = true ∧
    gives (step (box .referenceLiteral))
      (fun t => lit t.work [391, 392, 393, 394, 455, 458, 519, 522, 583, 584, 585, 586]) = true := by decide
theorem test_drw_edges_V_D6_D7_D8 :
    gives (step (corner .wrap)) (fun t => lit t.work [1984, 1985, 1986, 1987, 1988, 1989, 2046, 2047]) = true ∧
    gives (step (corner .clip)) (fun t => lit t.work [2046, 2047]) = true ∧
    gives (step (corner .fault)) (fun t => t.fault == some .framebufferBounds && lit t.work [] && t.pc == 0) = true := by
  decide
theorem test_drw_V_D9_D11 :
    gives (step ((at_ 0 0xD001).setI 0xFFF)) (fun t => t.fault == some .memoryBounds && lit t.work []) = true ∧
    gives (step (((under { Params.default with drawEdge := .fault } 0xDA01).setReg 10 62).setI 0xFFF))
      (fun t => t.fault == some .memoryBounds) = true := by decide
theorem test_addI_V_D14_D15 :
    gives (step (((at_ 0 0xF11E).setI 0x0FF).setReg 1 4)) (fun t => t.I == 0x103) = true ∧
    gives (step (((at_ 0 0xF11E).setI 0xFFF).setReg 1 2)) (fun t => t.I == 0x001 && t.reg 15 == 0) = true := by decide

/-! ## Keys -/

theorem test_skp_V_K1_K5 :
    gives (step (((at_ 0x020 0xE29E).setReg 2 7).setKeyBit 7 true)) (fun t => t.pc == 0x024) = true ∧
    gives (step ((at_ 0x020 0xE29E).setReg 2 16)) (fun t => t.fault == some .keyIndexBounds && t.pc == 0x020) = true := by
  decide
theorem test_sknp_V_K3_K4 :
    gives (step (((at_ 0x020 0xE2A1).setReg 2 7).setKeyBit 7 true)) (fun t => t.pc == 0x022) = true ∧
    gives (step ((at_ 0x020 0xE2A1).setReg 2 7)) (fun t => t.pc == 0x024) = true := by decide
theorem test_waitkey_V_K7 :
    gives (step (at_ 0x040 0xF30A)) (fun t => t.wait == some 3 && t.pc == 0x042 && t.reg 3 == 0) = true := by decide
theorem test_receiveInput_V_K8_K9 :
    gives (transact (.receiveInput 7) (State.reset.setWait (some 3))) (fun t => t.reg 3 == 7 && t.wait == none) = true ∧
    transact (.receiveInput 7) State.reset = .next State.reset := by
  exact ⟨by decide, rfl⟩
theorem test_getTimer_V_K12 :
    gives (step ((at_ 0 0xF407).setReg 4 0x33)) (fun t => t == ((at_ 0 0xF407).setReg 4 0x33).setPc 2) = true := by decide
theorem test_setTimer_V_K12 : gives (step (at_ 0 0xF415)) (fun t => t == (at_ 0 0xF415).setPc 2) = true := by decide
theorem test_setAudio_V_K12 : gives (step (at_ 0 0xF418)) (fun t => t == (at_ 0 0xF418).setPc 2) = true := by decide
theorem test_setKey_V_K14 :
    gives (transact (.setKey 3 true) State.reset) (fun t => t.keys.get 3 && t.wait == none) = true := by decide
theorem test_reset_image :
    gives (transact (.reset [0x00, 0x12, 0x00]) (State.reset.setFault .fetchBounds))
      (fun t => t.mem == [(1, 0x12)] && t.fault == none) = true := by decide
theorem test_placed_word_runs :
    gives (step ((State.reset.setPc 0x0FFF).withFetchWord 16 0x6105)) (fun t => t.reg 1 == 5 && t.pc == 2) = true := by decide
theorem test_outputs :
    (State.reset.setFault .framebufferBounds).faultCode = 7 ∧ State.reset.frontCell 0 = 0 ∧
    State.reset.memBytes.length = 4096 ∧ State.reset.frontCells.length = 2048 := by
  refine ⟨rfl, rfl, ?_, ?_⟩
  · simp [State.memBytes, Config.memSize]
  · simp [State.frontCells, Config.fbCells, Config.fbW, Config.fbH]

/-! ## The statements' hypotheses can be met -/

theorem witness_ResetLoadsImageAndClearsState :
    (List.replicate 4096 (0xFF : Byte)).length ≤ 4096 ∧ 4096 < (List.replicate 4097 (0xFF : Byte)).length := by
  exact ⟨by rw [List.length_replicate], by rw [List.length_replicate]; omega⟩

theorem witness_StepFollowsTheCycle :
    (State.reset.setFault .fetchBounds).fault ≠ none ∧ (State.reset.setWait (some 15)).wait ≠ none ∧
    0x1000 ≤ (State.reset.setPc 0x1000).pc.toNat ∧
    ((State.reset.setPc 0x0FFF).fault = none ∧ (State.reset.setPc 0x0FFF).wait = none ∧
      (State.reset.setPc 0x0FFF).pc.toNat = 0x0FFF) ∧
    ((at_ 0x0FFE 0x00E1).running ∧
      0x00E1 = wordOfBytes ((at_ 0x0FFE 0x00E1).mem.read 0x0FFE) ((at_ 0x0FFE 0x00E1).mem.read 0x0FFF)) ∧
    ((at_ 0 0x6105).running ∧
      decodeWord (wordOfBytes ((at_ 0 0x6105).mem.read 0) ((at_ 0 0x6105).mem.read 1)) = .ok (.ldImm 1 5)) ∧
    ((at_ 0 0x9000).running ∧
      decodeWord (wordOfBytes ((at_ 0 0x9000).mem.read 0) ((at_ 0 0x9000).mem.read 1)) =
        .error (.undefinedFamily9 0x9000)) := by
  exact ⟨by decide, by decide, by decide, by decide, ⟨⟨rfl, rfl, by decide⟩, rfl⟩, ⟨⟨rfl, rfl, by decide⟩, rfl⟩,
    ⟨rfl, rfl, by decide⟩, rfl⟩

theorem witness_StepRunsTheDecodedInstruction :
    (at_ 0x0FFE 0x6105).running ∧
    decode [(at_ 0x0FFE 0x6105).mem.read 0x0FFE, (at_ 0x0FFE 0x6105).mem.read 0x0FFF] = .ok (.ldImm 1 5, []) := by
  exact ⟨⟨rfl, rfl, by decide⟩, rfl⟩

theorem witness_PlacedWordRunsNext : decodeTableWord 16 0xF11E = some (.addI 1) := by rfl

theorem witness_UndefinedEncodingFollowsPolicy :
    ((at_ 0 0x8008).running ∧ undefinedEncoding (wordOfBytes ((at_ 0 0x8008).mem.read 0) ((at_ 0 0x8008).mem.read 1)) ∧
      (at_ 0 0x8008).params.undefinedPolicy = .fault) ∧
    (under { Params.default with undefinedPolicy := .noop } 0x9FFF).running ∧
    undefinedEncoding (wordOfBytes ((under { Params.default with undefinedPolicy := .noop } 0x9FFF).mem.read 0)
      ((under { Params.default with undefinedPolicy := .noop } 0x9FFF).mem.read 1)) ∧
    (under { Params.default with undefinedPolicy := .noop } 0x9FFF).params.undefinedPolicy = .noop := by
  refine ⟨⟨⟨rfl, rfl, by decide⟩, ?_, rfl⟩, ⟨rfl, rfl, by decide⟩, ?_, rfl⟩
  · right; left; decide
  · left; decide

theorem witness_ZeroedMemoryIsSlidThrough :
    State.reset.fault = none ∧ State.reset.wait = none ∧ State.reset.pc.toNat + 2 * 2048 ≤ 4096 ∧
    ∀ a, State.reset.pc.toNat ≤ a → a < State.reset.pc.toNat + 2 * 2048 → State.reset.mem.read a = 0 := by
  exact ⟨rfl, rfl, by decide, fun _ _ _ => rfl⟩

theorem witness_FaultsArePreciseAndSticky :
    (∃ t, step (at_ 0 0x00EE) = .next t ∧ t.fault ≠ (at_ 0 0x00EE).fault) ∧
    (State.reset.setFault .keyIndexBounds).fault ≠ none ∧
    (∃ t, transact (.reset []) (State.reset.setFault .keyIndexBounds) = .next t) ∧
    (∃ t, transact .step (State.reset.setFault .keyIndexBounds) = .next t) := by
  exact ⟨⟨_, rfl, by decide⟩, by decide, ⟨_, rfl⟩, ⟨_, rfl⟩⟩

theorem witness_FaultedMachineStaysPut :
    ∃ t, transactAll [.step, .setKey 15 true, .receiveInput 15, .rnd 1] (State.reset.setFault .memoryBounds) = .next t ∧
      (∀ image, Transaction.reset image ∉ [.step, .setKey 15 true, .receiveInput 15, .rnd 1]) ∧
      (State.reset.setFault .memoryBounds).fault = some .memoryBounds ∧
      (State.reset.setFault .memoryBounds).wait = none := by
  exact ⟨_, rfl, by simp, rfl, rfl⟩

theorem witness_FaultsHaveTheirCausesAndCodes :
    (∃ t, step (at_ 0 0x00EE) = .next t ∧ t.fault = some .stackUnderflow) ∧
    (∃ t, step ((at_ 0 0x2000).setSp 0xFFFF) = .next t ∧ t.fault = some .stackOverflow) ∧
    (∃ t, step (State.reset.setPc 0x0FFF) = .next t ∧ t.fault = some .fetchBounds) ∧
    (∃ t, step ((at_ 0 0xE09E).setReg 0 16) = .next t ∧ t.fault = some .keyIndexBounds) ∧
    (∃ t, step ((at_ 0 0xE0A1).setReg 0 16) = .next t ∧ t.fault = some .keyIndexBounds) ∧
    (∃ t, step (at_ 0 0x9000) = .next t ∧ t.fault = some .illegalInstruction) ∧
    (∃ t, step ((at_ 0 0xD001).setI 0xFFF) = .next t ∧ t.fault = some .memoryBounds) ∧
    (∃ t, step (corner .fault) = .next t ∧ t.fault = some .framebufferBounds) ∧ State.reset.fault = none := by
  exact ⟨⟨_, rfl, rfl⟩, ⟨_, rfl, rfl⟩, ⟨_, rfl, rfl⟩, ⟨_, rfl, rfl⟩, ⟨_, rfl, rfl⟩, ⟨_, rfl, rfl⟩, ⟨_, rfl, rfl⟩,
    ⟨_, rfl, rfl⟩, rfl⟩

theorem witness_DecodeOfEncodeIsIdentity : Instr.wf (.nop0 0xFFF) = true ∧ Instr.wf (.drw 15 15 15) = true := by decide

theorem witness_EncodeOfDecodeIsIdentity : decodeWord 0xFF1E = .ok (.addI 15) := by rfl

theorem witness_DecodeFollowsTheOpcodeTable :
    decodeWord 0x0123 = .ok (.nop0 0x123) ∧ (0x0123 : Word) &&& (Instr.nop0 0).row.mask = (Instr.nop0 0).row.pattern ∧
    (0x0123 : Word) ∉ [(0x00E0 : Word), 0x00E1, 0x00E2, 0x00EE] := by
  exact ⟨rfl, by decide, by decide⟩

theorem witness_DecodeRejectsExactlyTheUndefined :
    (∃ e, decodeWord 0x800F = .error e) ∧ undefinedEncoding 0xE09F ∧ undefinedEncoding 0xF01F ∧
    ¬ undefinedEncoding 0x800E := by
  refine ⟨⟨_, rfl⟩, .inr (.inr (.inl (by decide))), .inr (.inr (.inr (by decide))), ?_⟩
  unfold undefinedEncoding; decide

/-- A state with one entry on its stack (the CALL at 0x204), about to run a no-operation. -/
def oneDeep : State := ((State.reset.setPc 0x300).setSp 0x0FFD).setMem [(0x0FFE, 0x02), (0x0FFF, 0x04)]

theorem oneDeep_inv : oneDeep.Inv where
  memCanonical := by decide
  memInRange := by decide
  fbCanonical := by decide
  fbInRange := by decide
  fbPixels := by
    intro b c; left
    rcases b with ⟨_ | _ | n, hb⟩
    · rfl
    · rfl
    · omega
  pointerMasked := by decide
  spOnEntry := by decide
  pcReachable := by decide
  entriesAreCalls := by
    intro k h1 h2
    have hd : oneDeep.depth = 1 := by decide
    obtain rfl : k = 1 := by omega
    decide
  notBlockedAndFaulted := by decide
  flagBitsDistinct := by decide

theorem witness_StepKeepsInvariant : oneDeep.Inv ∧ ∃ t, step oneDeep = .next t := ⟨oneDeep_inv, _, rfl⟩

theorem witness_TransactionsKeepInvariant :
    oneDeep.Inv ∧ ∃ t, transactAll [.step, .setKey 0 true, .rnd 0, .reset [0xF0, 0x0A], .step, .receiveInput 0] oneDeep =
      .next t := ⟨oneDeep_inv, _, rfl⟩

theorem witness_LiveStackEntriesSurviveEveryStep :
    oneDeep.Inv ∧ ∃ t, step oneDeep = .next t ∧ 1 ≤ oneDeep.depth ∧ 1 ≤ t.depth := by
  exact ⟨oneDeep_inv, _, rfl, by decide, by decide⟩

theorem witness_RetReturnsToItsMatchingCall :
    oneDeep.Inv ∧ oneDeep.pc.toNat < 0x0FFF ∧
    ∃ s1 s2, exec (.call 0x400) oneDeep = .next s1 ∧ Sys2Proof.core.run 1 s1 = .next s2 ∧ s2.depth = oneDeep.depth + 1 ∧
      ∀ j, j ≤ 1 → ∃ u, Sys2Proof.core.run j s1 = .next u ∧ oneDeep.depth < State.depth u := by
  refine ⟨oneDeep_inv, by decide, _, _, rfl, rfl, by decide, fun j hj => ?_⟩
  have : j = 0 ∨ j = 1 := by omega
  rcases this with rfl | rfl
  · exact ⟨_, rfl, by decide⟩
  · exact ⟨_, rfl, by decide⟩

theorem witness_RetPopsAndReturns :
    (oneDeep.sp ≠ 0x0FFF ∧ 1 ≤ (oneDeep.sp + 2).toNat ∧ (oneDeep.sp + 2).toNat ≤ 0x0FFF) ∧
    ((State.reset.setSp 0xFFFF).sp ≠ 0x0FFF ∧ 1 ≤ ((State.reset.setSp 0xFFFF).sp + 2).toNat ∧
      ((State.reset.setSp 0xFFFF).sp + 2).toNat ≤ 0x0FFF) ∧ State.reset.sp = 0x0FFF := by decide

theorem witness_RetOutsideMemoryUnderflows :
    ((State.reset.setSp 0xFFFE).sp + 2).toNat < 1 ∧ 0x0FFF < ((State.reset.setSp 0x0FFE).sp + 2).toNat := by decide

theorem witness_CallPushesAndJumps :
    (1 ≤ (State.reset.setSp 1).sp.toNat ∧ (State.reset.setSp 1).sp.toNat ≤ 0x0FFF) ∧
    (1 ≤ State.reset.sp.toNat ∧ State.reset.sp.toNat ≤ 0x0FFF) ∧
    (State.reset.setSp 0).sp.toNat < 1 ∧ 0x0FFF < (State.reset.setSp 0x1000).sp.toNat := by decide

theorem witness_CallThenRetReturnsAfterTheCall :
    ∃ t, 1 ≤ oneDeep.sp.toNat ∧ oneDeep.sp.toNat ≤ 0x0FFF ∧ exec (.call 0xFFF) oneDeep = .next t ∧
      (t.setReg 3 1).sp = t.sp ∧
      (t.setReg 3 1).mem.read (oneDeep.sp.toNat - 1) = t.mem.read (oneDeep.sp.toNat - 1) ∧
      (t.setReg 3 1).mem.read oneDeep.sp.toNat = t.mem.read oneDeep.sp.toNat := by
  exact ⟨_, by decide, by decide, rfl, rfl, rfl, rfl⟩

theorem witness_SkipsOnImmediate :
    (State.reset.reg 0).toNat = (0 : Byte).toNat ∧ (State.reset.reg 15).toNat ≠ (0xFF : Byte).toNat := by decide

theorem witness_SkipsOnRegistersEqual :
    State.reset.reg 0 = State.reset.reg 15 ∧ (State.reset.setReg 1 1).reg 0 ≠ (State.reset.setReg 1 1).reg 1 := by decide

theorem witness_FlagUpdateWritesThreeBits :
    State.reset.params.wf ∧
    (under { Params.default with flagBitC := 7, carryRule := .literalBit0, signRule := .bit7OfLowByte } 0).params.wf := by
  decide

theorem witness_ArithmeticWritesResultThenFlags :
    (0x01FE : Word).toNat = ((State.reset.setReg 1 0xFF).reg 1).toNat + ((State.reset.setReg 1 0xFF).reg 1).toNat ∧
    (0xFF01 : Word).toNat =
      (65536 + ((State.reset.setReg 1 0xFF).reg 0).toNat - ((State.reset.setReg 1 0xFF).reg 1).toNat) % 65536 ∧
    (0x00FF : Word).toNat =
      (65536 + ((State.reset.setReg 1 0xFF).reg 1).toNat - ((State.reset.setReg 1 0xFF).reg 0).toNat) % 65536 := by decide

theorem witness_DefaultFlagsAreCarryBorrowSignZero :
    State.reset.params = Params.default ∧ (0 : Reg) ≠ flagReg ∧ (∃ t, exec (.add 0 15) State.reset = .next t) ∧
    (∃ t, exec (.sub 0 15) State.reset = .next t) ∧ (∃ t, exec (.rsub 0 15) State.reset = .next t) := by
  exact ⟨rfl, by decide, ⟨_, rfl⟩, ⟨_, rfl⟩, ⟨_, rfl⟩⟩

theorem witness_RotatesUndoEachOther :
    (∃ t u, exec (.ror 15 0) State.reset = .next t ∧ exec (.rol 15 1) t = .next u) ∧
    (∃ t u, exec (.rol 15 0) State.reset = .next t ∧ exec (.ror 15 1) t = .next u) := by
  exact ⟨⟨_, _, rfl, rfl⟩, ⟨_, _, rfl, rfl⟩⟩

theorem witness_RndMasksTheSampledByte :
    ((State.reset.supplyRnd 0xA7).supplyRnd 1).rndPending = 0xA7 :: [1] := by rfl

theorem witness_RndUsesEachSampleOnce :
    (∃ t u, exec (.rnd 0 0xFF) ((State.reset.supplyRnd 1).supplyRnd 2) = .next t ∧ exec (.rnd 15 0) t = .next u) ∧
    ((State.reset.supplyRnd 1).supplyRnd 2).rndPending = 1 :: 2 :: [] ∧
    (∃ t u, exec (.rnd 0 0xFF) State.reset = .next t ∧ exec (.rnd 15 0) t = .next u) ∧ State.reset.rndPending = [] := by
  exact ⟨⟨_, _, rfl, rfl⟩, rfl, ⟨_, _, rfl, rfl⟩, rfl⟩

theorem witness_DrwTogglesTheCoveredCells :
    ((State.reset.setI 0x0FFF).I.toNat + (0 : Fin 16).val ≤ 0x0FFF ∧
      (State.reset.params.drawEdge = .fault → ¬ State.reset.spriteLeavesScreen 0 0 0)) ∧
    (0x0FFF < (State.reset.setI 0x0FFF).I.toNat + (1 : Fin 16).val) ∧
    ((corner .fault).I.toNat + (0 : Fin 16).val ≤ 0x0FFF ∧ (corner .fault).params.drawEdge = .fault ∧
      (corner .fault).spriteLeavesScreen 10 11 0) ∧
    (corner .fault).spriteCovers 10 11 0 2047 ∧ (corner .wrap).spriteCovers 10 11 0 1984 := by
  refine ⟨⟨by decide, fun h => by cases h⟩, by decide, ⟨by decide, rfl, 64, 31, ⟨0, 5, by decide⟩, .inl (by decide)⟩, ?_, ?_⟩
  · exact ⟨63, 31, ⟨0, 6, by decide⟩, by decide, by decide, rfl⟩
  · exact ⟨64, 31, ⟨0, 5, by decide⟩, rfl⟩

theorem witness_DrawingTwiceRestores :
    ∃ t u, exec (.drw 10 11 0) (corner .clip) = .next t ∧ exec (.drw 10 11 0) t = .next u ∧ t.work ≠ u.work := by
  exact ⟨_, _, rfl, rfl, by decide⟩

theorem witness_DrwCellsAreDistinctAndOnScreen : (corner .clip).drawCells 10 11 0 = .ok [2047, 2046] := by rfl

theorem witness_KeySkips :
    ((State.reset.setReg 2 15).reg 2).toNat = (15 : Fin 16).val ∧ (State.reset.setKeyBit 15 true).keys.get 15 = true ∧
    State.reset.keys.get 0 = false ∧ 16 ≤ ((State.reset.setReg 2 16).reg 2).toNat := by decide

theorem witness_ReceiveInputDelivers :
    (15 < 16 ∧ State.reset.wait = none) ∧ (State.reset.setWait (some 15)).wait = some 15 := by decide

theorem witness_CallsOutsideTheContractAreRefused : 16 ≤ (16 : Nat) := by decide

theorem witness_BlockedMachineWaits :
    ∃ t, transactAll [.step, .setKey 3 true, .rnd 7] (State.reset.setWait (some 3)) = .next t ∧
      (State.reset.setWait (some 3)).wait = some 3 ∧
      (∀ image, Transaction.reset image ∉ [.step, .setKey 3 true, .rnd 7]) ∧
      (∀ k, Transaction.receiveInput k ∉ [.step, .setKey 3 true, .rnd 7]) := by
  exact ⟨_, rfl, rfl, by simp, by simp⟩

theorem witness_RegistersChangeOnlyAsDestinations :
    (∃ t, exec (.ldImm 0 1) State.reset = .next t ∧ t.reg 0 ≠ State.reset.reg 0) ∧
    (∃ t, exec (.add 0 1) State.reset = .next t ∧ t.reg flagReg ≠ State.reset.reg flagReg) := by
  exact ⟨⟨_, rfl, by decide⟩, ⟨_, rfl, by decide⟩⟩

theorem witness_DisplayHasThreeWriters :
    (∃ t, exec (.drw 1 2 3) (box .msbFirst) = .next t) ∧ (∃ t, exec .cls (box .msbFirst) = .next t) ∧
    (∃ t, exec .swap (box .msbFirst) = .next t) ∧ (1 : Fin 2) ≠ State.reset.fbSel := by
  exact ⟨⟨_, rfl⟩, ⟨_, rfl⟩, ⟨_, rfl⟩, by decide⟩

theorem witness_OnlyCallWritesMemory :
    ∃ t, exec .ret oneDeep = .next t ∧ ∀ nnn, Instr.ret ≠ .call nnn := by
  exact ⟨_, rfl, by simp⟩

theorem witness_ControlRegistersHaveTheirWriters :
    (∃ t, exec (.ldI 1) oneDeep = .next t ∧ t.I ≠ oneDeep.I) ∧ (∃ t, exec .ret oneDeep = .next t ∧ t.sp ≠ oneDeep.sp) ∧
    (∃ t, exec (.waitkey 0) oneDeep = .next t ∧ t.wait ≠ oneDeep.wait) := by
  exact ⟨⟨_, rfl, by decide⟩, ⟨_, rfl, by decide⟩, ⟨_, rfl, by decide⟩⟩

theorem witness_ParametersAndSupplyAreTheHosts :
    (∃ t, transact (.reset []) oneDeep = .next t) ∧ (∃ t, exec (.mov 0 1) oneDeep = .next t) ∧
    ∀ x kk, Instr.mov 0 1 ≠ .rnd x kk := by
  exact ⟨⟨_, rfl⟩, ⟨_, rfl⟩, by simp⟩

theorem witness_FlagsAreNeverReadImplicitly :
    flagReg ∉ (Instr.add 0 1).reads ∧ (∃ t, exec (.add 0 1) oneDeep = .next t) ∧
    ∃ t, exec (.add 0 1) (oneDeep.setReg flagReg 0xFF) = .next t := by
  exact ⟨by decide, ⟨_, rfl⟩, ⟨_, rfl⟩⟩

theorem witness_DisplayNeverReachesTheProgram :
    (∃ t, exec (.drw 0 0 0) oneDeep = .next t) ∧
    ∃ t, exec (.drw 0 0 0) { oneDeep with fb0 := [(0, 1)], fb1 := [], fbSel := 1 } = .next t := by
  exact ⟨⟨_, rfl⟩, ⟨_, rfl⟩⟩

end Sys2Proof.Tests
end

section
/-! The stack instructions (spec/20_memory.md R55 and R56, spec/41_control.md R123 and R125): what RET and CALL answer in
each state, and the settled statements about them. -/

namespace Sys2Proof.Machine

/-! ## Decoding -/

/-- Every word of family 2 is a CALL (R73). -/
theorem decodeWord_formatA_call (nnn : Addr) : decodeWord (formatA 0x2 nnn) = .ok (.call nnn) := by
  simp [decodeWord]

/-! ## What RET and CALL answer -/

/-- Everything a RET can do (R123): return to the popped entry plus 2, or underflow. -/
theorem exec_ret_cases (s : State) :
    (s.sp ≠ 0x0FFF ∧ 1 ≤ (s.sp + 2).toNat ∧ (s.sp + 2).toNat < 4096 ∧
      exec .ret s = .next ((s.setSp (s.sp + 2)).setPc (s.mem.readWord ((s.sp + 2).toNat - 1) + 2))) ∨
    ((s.sp = 0x0FFF ∨ (s.sp + 2).toNat < 1 ∨ 4096 ≤ (s.sp + 2).toNat) ∧
      exec .ret s = .next (s.setFault .stackUnderflow)) := by
  have hexec : exec .ret s = s.orRaise (s.pop.map fun vt => vt.2.setPc (vt.1 + 2)) := rfl
  rw [hexec]
  obtain ⟨hne, hlo, hhi, hpop⟩ | ⟨hout, hpop⟩ := s.pop_cases
  · exact .inl ⟨hne, hlo, hhi, by rw [hpop]; rfl⟩
  · exact .inr ⟨hout, by rw [hpop]; rfl⟩

/-- Everything a CALL can do (R125): push its own address and jump, or overflow. -/
theorem exec_call_cases (nnn : Addr) (s : State) :
    (1 ≤ s.sp.toNat ∧ s.sp.toNat < 4096 ∧
      exec (.call nnn) s =
        .next (((s.setMem (s.mem.writeWord (s.sp.toNat - 1) s.pc)).setSp (s.sp - 2)).setPc (addrOf nnn))) ∨
    ((s.sp.toNat < 1 ∨ 4096 ≤ s.sp.toNat) ∧ exec (.call nnn) s = .next (s.setFault .stackOverflow)) := by
  have hexec : exec (.call nnn) s = s.orRaise ((s.push s.pc).map fun t => t.setPc (addrOf nnn)) := rfl
  rw [hexec]
  obtain ⟨hlo, hhi, hpush⟩ | ⟨hout, hpush⟩ := s.push_cases s.pc
  · exact .inl ⟨hlo, hhi, by rw [hpush]; rfl⟩
  · exact .inr ⟨hout, by rw [hpush]; rfl⟩

/-- An address field keeps its value in 16 bits (R72). -/
@[simp] theorem addrOf_toNat (nnn : Addr) : (addrOf nnn).toNat = nnn.toNat :=
  BitVec.toNat_setWidth_of_le (by decide)

/-- A stack instruction writes memory, `sp` and `pc`; this is the rest of the state, which it leaves alone. -/
theorem State.frame_setMem_setSp_setPc (s : State) (m : Memory) (a p : Word) :
    let t := ((s.setMem m).setSp a).setPc p
    s.sameRegsBut t [] ∧ t.I = s.I ∧ s.sameDisplay t ∧ s.sameStatus t ∧ s.sameRandom t :=
  ⟨fun _ _ => rfl, rfl, ⟨rfl, fun _ _ => rfl⟩, ⟨rfl, rfl, rfl, rfl⟩, rfl, rfl⟩

/-! ## The settled statements -/

/-- Settles O24: the two clauses are the two cases of a RET, and the popped word is read byte by byte. -/
theorem retPopsAndReturns : Obligations.RetPopsAndReturns := by
  refine ⟨by decide, fun s => ⟨fun hne hlo hhi => ?_, fun hempty => ?_⟩⟩
  · obtain ⟨-, -, -, hexec⟩ | ⟨hout, -⟩ := exec_ret_cases s
    · have hpc : s.mem.readWord ((s.sp + 2).toNat - 1) =
          wordOfBytes (s.mem.read ((s.sp + 2).toNat - 1)) (s.mem.read (s.sp + 2).toNat) := by
        rw [Memory.readWord, Nat.sub_add_cancel hlo]
      obtain ⟨hregs, hI, hdisplay, hstatus, hrandom⟩ := s.frame_setMem_setSp_setPc s.mem (s.sp + 2)
        (s.mem.readWord ((s.sp + 2).toNat - 1) + 2)
      exact ⟨_, hexec, by rw [State.setPc_pc, hpc], rfl, hregs, hI, fun _ => rfl, hdisplay, hstatus, hrandom⟩
    · exact absurd hout (by simp only [hne, false_or]; omega)
  · obtain ⟨hne, -⟩ | ⟨-, hexec⟩ := exec_ret_cases s
    · exact absurd hempty hne
    · exact hexec

/-- Settles O26: the two clauses are the two cases of a CALL, and the pushed word is written byte by byte. -/
theorem callPushesAndJumps : Obligations.CallPushesAndJumps := by
  refine fun nnn => ⟨decodeWord_formatA_call nnn, fun s => ⟨fun hlo hhi => ?_, fun hout => ?_⟩⟩
  · obtain ⟨-, -, hexec⟩ | ⟨hout, -⟩ := exec_call_cases nnn s
    · have hread (a : Nat) : (s.mem.writeWord (s.sp.toNat - 1) s.pc).read a =
          if a = s.sp.toNat then s.pc.extractLsb' 0 8
          else if a = s.sp.toNat - 1 then s.pc.extractLsb' 8 8 else s.mem.read a := by
        rw [Memory.read_writeWord, Nat.sub_add_cancel hlo]
      obtain ⟨hregs, hI, hdisplay, hstatus, hrandom⟩ := s.frame_setMem_setSp_setPc
        (s.mem.writeWord (s.sp.toNat - 1) s.pc) (s.sp - 2) (addrOf nnn)
      refine ⟨_, hexec, addrOf_toNat nnn, rfl, ?high, ?low, ?others, hregs, hI, hdisplay, hstatus, hrandom⟩
      case high => exact (hread _).trans (by rw [if_neg (by omega), if_pos rfl])
      case low => exact (hread _).trans (if_pos rfl)
      case others => exact fun a hhigh hlow => (hread a).trans (by rw [if_neg hlow, if_neg hhigh])
    · omega
  · obtain ⟨hlo, hhi, -⟩ | ⟨-, hexec⟩ := exec_call_cases nnn s
    · omega
    · exact hexec

end Sys2Proof.Machine
end

section
/-! The no-operations (spec/30_encoding.md R74 and R75, spec/41_control.md R120, spec/45_keys_special.md R203): which words
decode to them, and that each of them only advances `pc`. -/

namespace Sys2Proof.Machine

/-! ## Decoding -/

/-- A family-0 word with none of the four reserved fields selects the no-operation (R74). -/
theorem decodeControl_of_notMem_reservedControl (w : Word) (h : fieldNNN w ∉ reservedControl) :
    decodeControl w = .nop0 (fieldNNN w) := by
  obtain ⟨hcls, hhlt, hswap, hret⟩ :
      fieldNNN w ≠ 0x0E0 ∧ fieldNNN w ≠ 0x0E1 ∧ fieldNNN w ≠ 0x0E2 ∧ fieldNNN w ≠ 0x0EE := by
    simpa [reservedControl] using h
  rw [decodeControl, if_neg hcls, if_neg hhlt, if_neg hswap, if_neg hret]

/-- Every word of family 0 but the four literals is the no-operation (R74, R120). -/
theorem decodeWord_formatA_nop0 (nnn : Addr) (h : nnn ∉ reservedControl) :
    decodeWord (formatA 0x0 nnn) = .ok (.nop0 nnn) := by
  have hfamily : decodeWord (formatA 0x0 nnn) = .ok (decodeControl (formatA 0x0 nnn)) := by
    simp [decodeWord]
  rw [hfamily, decodeControl_of_notMem_reservedControl _ (by rwa [fieldNNN_formatA]), fieldNNN_formatA]

/-- The three timer words (R75, R203). -/
theorem decodeWord_formatXK_timers (x : Reg) :
    decodeWord (formatXK 0xF x 0x07) = .ok (.getTimer x) ∧ decodeWord (formatXK 0xF x 0x15) = .ok (.setTimer x) ∧
    decodeWord (formatXK 0xF x 0x18) = .ok (.setAudio x) := by
  simp [decodeWord, decodeSpecial]

/-! ## What the no-operations answer -/

/-- Setting `pc` leaves the rest of the state alone. -/
theorem State.onlyPc_setPc (s : State) (a : Word) : s.onlyPc (s.setPc a) :=
  ⟨⟨fun _ _ => rfl, rfl, rfl, fun _ => rfl, ⟨rfl, rfl, rfl, rfl⟩, rfl, rfl⟩, rfl, fun _ _ => rfl⟩

/-- The family-0 no-operation and the three timer instructions have one meaning: `pc` advances by 2 (R120, R203). -/
theorem exec_noOperation (s : State) (i : Instr)
    (h : (∃ nnn, i = .nop0 nnn) ∨ ∃ x, i = .getTimer x ∨ i = .setTimer x ∨ i = .setAudio x) :
    exec i s = .next (s.advance 2) := by
  obtain ⟨nnn, rfl⟩ | ⟨x, rfl | rfl | rfl⟩ := h
  · exact (rfl : execNop0 s = _)
  · exact (rfl : execGetTimer s = _)
  · exact (rfl : execSetTimer s = _)
  · exact (rfl : execSetAudio s = _)

/-! ## The settled statement -/

/-- Settles O23: each word is one format with its fields given, and the four instructions have one meaning. -/
theorem noOperationsOnlyAdvance : Obligations.NoOperationsOnlyAdvance :=
  ⟨decodeWord_formatA_nop0, decodeWord_formatXK_timers, fun s i hi =>
    ⟨s.advance 2, exec_noOperation s i hi, rfl, s.onlyPc_setPc (s.pc + 2)⟩⟩

end Sys2Proof.Machine
end

section
/-! The cycle (spec/40_fetch_decode.md R100, R101, R103): what a step is in a state that fetches and in one that does not,
HLT, and the settled statements about them. -/

namespace Sys2Proof.Machine

/-! ## Which states do nothing -/

/-- A step does nothing exactly where `fault` or `wait` is set or `pc` is outside memory (R100). -/
theorem State.idle_iff_ne_none (s : State) :
    s.idle = true ↔ s.fault ≠ none ∨ s.wait ≠ none ∨ 0x1000 ≤ s.pc.toNat := by
  rw [State.idle_iff, Option.isSome_iff_ne_none, Option.isSome_iff_ne_none]

/-- Not faulted, not blocked and `pc` inside memory: the step goes on to fetch (R100). -/
theorem State.idle_eq_false (s : State) (hfault : s.fault = none) (hwait : s.wait = none)
    (hpc : s.pc.toNat < 0x1000) : s.idle = false := by
  rw [← Bool.not_eq_true, State.idle_iff_ne_none]
  rintro (h | h | h)
  · exact h hfault
  · exact h hwait
  · omega

/-! ## What a step is in a running state -/

/-- Where the word at `pc` decodes, a step is `exec` of its instruction (R105). -/
theorem step_of_decodeWord_ok (s : State) (hs : s.running) (i : Instr)
    (h : decodeWord (s.mem.readWord s.pc.toNat) = .ok i) : step s = exec i s := by
  obtain ⟨hfault, hwait, hpc⟩ := hs
  rw [step_fetch s (s.idle_eq_false hfault hwait (by omega)) (by omega), h]

/-- Where the word at `pc` does not decode, a step is the undefined-encoding behaviour (R106). -/
theorem step_of_decodeWord_error (s : State) (hs : s.running) (e : DecodeError)
    (h : decodeWord (s.mem.readWord s.pc.toNat) = .error e) : step s = execUndefined s := by
  obtain ⟨hfault, hwait, hpc⟩ := hs
  rw [step_fetch s (s.idle_eq_false hfault hwait (by omega)) (by omega), h]

/-! ## HLT -/

/-- The literal of HLT is also a family-0 row of the table (R103, R74). -/
theorem decodeWord_hlt : decodeWord 0x00E1 = .ok .hlt := by decide

/-- HLT sets `pc` just past memory (R103). -/
theorem exec_hlt (s : State) : exec .hlt s = .next (s.setPc 0x1000) := (rfl : execHlt s = _)

/-- With `pc` just past memory the machine is halted, whatever else it holds. -/
theorem State.idle_setPc_memSize (s : State) : (s.setPc 0x1000).idle = true :=
  (State.idle_iff_ne_none _).2 (.inr (.inr (by rw [State.setPc_pc]; decide)))

/-! ## The settled statements -/

/-- Settles O3: an idle state stays, the last address faults, and a running state runs what the word at `pc` decodes to. -/
theorem stepFollowsTheCycle : Obligations.StepFollowsTheCycle := by
  refine fun s => ⟨fun hidle => ?idle, fun hfault hwait hpc => ?lastAddress, fun hrun w hw => ?running⟩
  case idle => exact step_idle s (s.idle_iff_ne_none.2 hidle)
  case lastAddress => exact step_fetchBounds s (s.idle_eq_false hfault hwait (by omega)) (by omega)
  case running =>
    have hword : s.mem.readWord s.pc.toNat = w := hw.symm
    refine ⟨fun hhlt => ?_, fun i hi => ?_, fun e he => ?_⟩
    · exact step_of_decodeWord_ok s hrun .hlt (by rw [hword, hhlt, decodeWord_hlt])
    · exact step_of_decodeWord_ok s hrun i (by rw [hword, hi])
    · exact step_of_decodeWord_error s hrun e (by rw [hword, he])

/-- Settles O21: HLT only sets `pc`, to an address where the machine is idle. -/
theorem hltHalts : Obligations.HltHalts :=
  ⟨decodeWord_hlt, by rw [decodeFetched_eq, decodeWord_hlt]; rfl, fun s =>
    ⟨s.setPc 0x1000, exec_hlt s, rfl, s.onlyPc_setPc 0x1000, step_idle _ s.idle_setPc_memSize⟩⟩

end Sys2Proof.Machine
end

section
/-! The display instructions and the jumps (spec/41_control.md R121, R122, R124, R126): what CLS, SWAP, JP and JP_V0 answer
in each state, and the settled statements about them. -/

namespace Sys2Proof.Machine

/-! ## Decoding -/

/-- Every word of family 1 is a JP (R73). -/
theorem decodeWord_formatA_jp (nnn : Addr) : decodeWord (formatA 0x1 nnn) = .ok (.jp nnn) := by
  simp [decodeWord]

/-- Every word of family B is a JP_V0 (R73). -/
theorem decodeWord_formatA_jpV0 (nnn : Addr) : decodeWord (formatA 0xB nnn) = .ok (.jpV0 nnn) := by
  simp [decodeWord]

/-! ## What the four instructions answer -/

/-- CLS empties the work buffer (R121). -/
theorem exec_cls (s : State) : exec .cls s = .next ((s.setWork []).advance 2) := (rfl : execCls s = _)

/-- SWAP exchanges the roles (R122). -/
theorem exec_swap (s : State) : exec .swap s = .next (s.swapRoles.advance 2) := (rfl : execSwap s = _)

/-- JP sets `pc` to its field (R124). -/
theorem exec_jp (nnn : Addr) (s : State) : exec (.jp nnn) s = .next (s.setPc (addrOf nnn)) :=
  (rfl : execJp nnn s = _)

/-- JP_V0 sets `pc` to V0 plus its field (R126). -/
theorem exec_jpV0 (nnn : Addr) (s : State) :
    exec (.jpV0 nnn) s = .next (s.setPc (zext16 (s.reg 0) + addrOf nnn)) :=
  (rfl : execJpV0 nnn s = _)

/-- A register keeps its value in 16 bits (R126). -/
@[simp] theorem zext16_toNat (b : Byte) : (zext16 b).toNat = b.toNat :=
  BitVec.toNat_setWidth_of_le (by decide)

/-- The target of a JP_V0 is a plain sum: a byte plus 12 bits stays below 2^16, so no carry is lost (R126, D21). -/
theorem toNat_zext16_add_addrOf (b : Byte) (nnn : Addr) :
    (zext16 b + addrOf nnn).toNat = b.toNat + nnn.toNat := by
  have hb : b.toNat < 2 ^ 8 := b.isLt
  have hnnn : nnn.toNat < 2 ^ 12 := nnn.isLt
  rw [BitVec.toNat_add_of_lt (by rw [zext16_toNat, addrOf_toNat]; omega), zext16_toNat, addrOf_toNat]

/-! ## What the writers of the display leave alone -/

/-- Replacing the work buffer and advancing `pc` leaves all but the display alone. -/
theorem State.sameButDisplay_setWork_advance (s : State) (m : Memory) (k : Word) :
    s.sameButDisplay ((s.setWork m).advance k) [] :=
  ⟨fun r _ => s.setWork_reg m r, s.setWork_I m, s.setWork_sp m, fun a => congrArg (·.read a) (s.setWork_mem m),
    ⟨s.setWork_keys m, s.setWork_wait m, s.setWork_fault m, s.setWork_params m⟩,
    s.setWork_rndPending m, s.setWork_rndCount m⟩

/-- Exchanging the roles and advancing `pc` leaves all but the display alone. -/
theorem State.sameButDisplay_swapRoles_advance (s : State) (k : Word) :
    s.sameButDisplay (s.swapRoles.advance k) [] :=
  ⟨fun _ _ => rfl, rfl, rfl, fun _ => rfl, ⟨rfl, rfl, rfl, rfl⟩, rfl, rfl⟩

/-! ## The settled statements -/

/-- Settles O20: CLS writes the empty store, which reads 0 everywhere, into the work buffer. -/
theorem clsClearsOnlyTheWorkBuffer : Obligations.ClsClearsOnlyTheWorkBuffer := by
  refine ⟨by decide, fun s => ⟨_, exec_cls s, ?pc, fun c => ?work, fun c => ?front, s.setWork_fbSel [],
    s.sameButDisplay_setWork_advance [] 2⟩⟩
  case pc => rw [State.advance_pc, State.setWork_pc]
  case work => rw [State.advance_work, State.setWork_work, Memory.read_nil]
  case front => rw [State.advance_front, State.setWork_front]

/-- Settles O22: SWAP flips the role bit, so each buffer keeps its cells under the other role. -/
theorem swapExchangesRoles : Obligations.SwapExchangesRoles := by
  refine ⟨by decide, fun s => ⟨_, exec_swap s, rfl, rfl, fun _ _ => rfl, fun c => ⟨?work, ?front⟩,
    s.sameButDisplay_swapRoles_advance 2⟩⟩
  case work => rw [State.advance_work, State.swapRoles_work]
  case front => rw [State.advance_front, State.swapRoles_front]

/-- Settles O27: both jumps only set `pc`, and both targets fit in 16 bits. -/
theorem jumpsSetPc : Obligations.JumpsSetPc :=
  fun nnn => ⟨decodeWord_formatA_jp nnn, decodeWord_formatA_jpV0 nnn, fun s =>
    ⟨⟨_, exec_jp nnn s, addrOf_toNat nnn, s.onlyPc_setPc _⟩,
      ⟨_, exec_jpV0 nnn s, toNat_zext16_add_addrOf (s.reg 0) nnn, s.onlyPc_setPc _⟩⟩⟩

end Sys2Proof.Machine
end

section
/-! The skips (spec/42_skip.md R140 to R142): which words decode to them, what the skip does to a state, and the settled
statements about them. -/

namespace Sys2Proof.Machine

/-! ## Decoding -/

/-- Every word of family 3 is a SE_IMM (R73). -/
theorem decodeWord_formatXK_seImm (x : Reg) (kk : Byte) : decodeWord (formatXK 0x3 x kk) = .ok (.seImm x kk) := by
  simp [decodeWord]

/-- Every word of family 4 is a SNE_IMM (R73). -/
theorem decodeWord_formatXK_sneImm (x : Reg) (kk : Byte) : decodeWord (formatXK 0x4 x kk) = .ok (.sneImm x kk) := by
  simp [decodeWord]

/-- Every word of family 5 is a SE_REG, whatever its low nibble (R142). -/
theorem decodeWord_formatXY_seReg (x y : Reg) (n : Fin 16) :
    decodeWord (formatXY 0x5 x y (nib n)) = .ok (.seReg x y n) := by
  simp [decodeWord]

/-! ## What a skip does to a state -/

/-- A skip whose condition holds moves `pc` past the next word (R140). -/
theorem State.skipIf_pc_of_true (s : State) {c : Bool} (h : c = true) : (s.skipIf c).pc = s.pc + 4 := by
  rw [h, State.skipIf_true, State.advance_pc]

/-- A skip whose condition fails moves `pc` to the next word (R140). -/
theorem State.skipIf_pc_of_false (s : State) {c : Bool} (h : c = false) : (s.skipIf c).pc = s.pc + 2 := by
  rw [h, State.skipIf_false, State.advance_pc]

/-- Taken or not, a skip leaves all but `pc` alone: it does not look at the word it skips (R140). -/
theorem State.onlyPc_skipIf (s : State) (c : Bool) : s.onlyPc (s.skipIf c) := by
  cases c with
  | false => exact s.onlyPc_setPc (s.pc + 2)
  | true => exact s.onlyPc_setPc (s.pc + 4)

/-! ## What the three instructions answer -/

/-- SE_IMM skips on equality with the immediate (R140). -/
theorem exec_seImm (x : Reg) (kk : Byte) (s : State) : exec (.seImm x kk) s = .next (s.skipIf (s.reg x == kk)) :=
  (rfl : execSeImm x kk s = _)

/-- SNE_IMM skips on inequality with the immediate (R141). -/
theorem exec_sneImm (x : Reg) (kk : Byte) (s : State) : exec (.sneImm x kk) s = .next (s.skipIf (s.reg x != kk)) :=
  (rfl : execSneImm x kk s = _)

/-- SE_REG skips on equality of the registers; its low nibble plays no part (R142). -/
theorem exec_seReg (x y : Reg) (n : Fin 16) (s : State) :
    exec (.seReg x y n) s = .next (s.skipIf (s.reg x == s.reg y)) :=
  (rfl : execSeReg x y s = _)

/-! ## The settled statements -/

/-- Settles O31: both instructions are one skip, on the comparison with the immediate and on its negation. -/
theorem skipsOnImmediate : Obligations.SkipsOnImmediate := by
  refine fun x kk => ⟨decodeWord_formatXK_seImm x kk, decodeWord_formatXK_sneImm x kk, fun s => ⟨?seImm, ?sneImm⟩⟩
  case seImm =>
    exact ⟨_, exec_seImm x kk s, s.onlyPc_skipIf _,
      fun heq => s.skipIf_pc_of_true (beq_iff_eq.2 heq), fun hne => s.skipIf_pc_of_false (beq_false_of_ne hne)⟩
  case sneImm =>
    exact ⟨_, exec_sneImm x kk s, s.onlyPc_skipIf _,
      fun hne => s.skipIf_pc_of_true (bne_iff_ne.2 hne), fun heq => s.skipIf_pc_of_false (bne_eq_false_iff_eq.2 heq)⟩

/-- Settles O32: SE_REG is the same skip, on the comparison of its two registers. -/
theorem skipsOnRegistersEqual : Obligations.SkipsOnRegistersEqual := by
  refine fun x y n => ⟨decodeWord_formatXY_seReg x y n, fun s =>
    ⟨_, exec_seReg x y n s, s.onlyPc_skipIf _, fun heq => ?skip, fun hne => ?next⟩⟩
  case skip => exact s.skipIf_pc_of_true (beq_iff_eq.2 heq)
  case next => exact s.skipIf_pc_of_false (beq_false_of_ne hne)

end Sys2Proof.Machine
end

section
/-! The flag-free register writers (spec/43_alu.md R150, R151, R153 to R156, R159, R161): immediate load and add, copy, logic
and rotates, which all write Vx alone; and the settled statements about them. -/

namespace Sys2Proof.Machine

/-! ## Decoding -/

/-- Every word of family 6 is a LD_IMM (R73). -/
theorem decodeWord_formatXK_ldImm (x : Reg) (kk : Byte) : decodeWord (formatXK 0x6 x kk) = .ok (.ldImm x kk) := by
  simp [decodeWord]

/-- Every word of family 7 is an ADD_IMM (R73). -/
theorem decodeWord_formatXK_addImm (x : Reg) (kk : Byte) : decodeWord (formatXK 0x7 x kk) = .ok (.addImm x kk) := by
  simp [decodeWord]

/-- The copy and logic words of family 8 (R73). -/
theorem decodeWord_formatXY_copyLogic (x y : Reg) :
    decodeWord (formatXY 0x8 x y 0x0) = .ok (.mov x y) ∧ decodeWord (formatXY 0x8 x y 0x1) = .ok (.or x y) ∧
    decodeWord (formatXY 0x8 x y 0x2) = .ok (.and x y) ∧ decodeWord (formatXY 0x8 x y 0x3) = .ok (.xor x y) := by
  simp [decodeWord, decodeAlu]

/-- The rotate words of family 8, whatever their y field (R73, D8). -/
theorem decodeWord_formatXY_rotates (x y : Reg) :
    decodeWord (formatXY 0x8 x y 0x6) = .ok (.ror x y) ∧ decodeWord (formatXY 0x8 x y 0xE) = .ok (.rol x y) := by
  simp [decodeWord, decodeAlu]

/-! ## What a register write leaves alone -/

/-- A register write leaves all but that register alone. -/
theorem State.onlyRegs_setReg (s : State) (x : Reg) (b : Byte) : s.onlyRegs (s.setReg x b) [x] :=
  ⟨⟨fun r hr => s.setReg_reg_ne x r b (List.ne_of_not_mem_cons hr), rfl, rfl, fun _ => rfl, ⟨rfl, rfl, rfl, rfl⟩,
    rfl, rfl⟩, rfl, fun _ _ => rfl⟩

/-- Changes of some registers, then of others, keep all but both. -/
theorem State.onlyRegs.trans {s t u : State} {xs ys : List Reg} (hst : s.onlyRegs t xs) (htu : t.onlyRegs u ys) :
    s.onlyRegs u (xs ++ ys) := by
  obtain ⟨⟨hregs, hI, hsp, hmem, ⟨hkeys, hwait, hfault, hparams⟩, hpending, hcount⟩, hsel, hfb⟩ := hst
  obtain ⟨⟨hregs', hI', hsp', hmem', ⟨hkeys', hwait', hfault', hparams'⟩, hpending', hcount'⟩, hsel', hfb'⟩ := htu
  exact ⟨⟨fun r hr => (hregs' r (fun hys => hr (List.mem_append_right xs hys))).trans
      (hregs r (fun hxs => hr (List.mem_append_left ys hxs))),
    hI'.trans hI, hsp'.trans hsp, fun a => (hmem' a).trans (hmem a),
    ⟨hkeys'.trans hkeys, hwait'.trans hwait, hfault'.trans hfault, hparams'.trans hparams⟩,
    hpending'.trans hpending, hcount'.trans hcount⟩, hsel'.trans hsel, fun b c => (hfb' b c).trans (hfb b c)⟩

/-- Advancing `pc` after a change that keeps all but some registers keeps all but those registers. -/
theorem State.onlyRegs.advance {s t : State} {xs : List Reg} (h : s.onlyRegs t xs) (k : Word) :
    s.onlyRegs (t.advance k) xs := h

/-- The common shape of the instructions here: where one ends in a write of `b` to Vx and an advance, Vx holds `b` and
nothing else but `pc` has changed. -/
theorem exists_next_of_exec_setReg {i : Instr} {s : State} {x : Reg} {b : Byte}
    (h : exec i s = .next ((s.setReg x b).advance 2)) :
    ∃ t, exec i s = .next t ∧ t.reg x = b ∧ t.pc = s.pc + 2 ∧ s.onlyRegs t [x] :=
  ⟨_, h, s.setReg_reg_same x b, rfl, (s.onlyRegs_setReg x b).advance 2⟩

/-! ## What the instructions answer -/

/-- LD_IMM writes its immediate (R150). -/
theorem exec_ldImm (x : Reg) (kk : Byte) (s : State) : exec (.ldImm x kk) s = .next ((s.setReg x kk).advance 2) :=
  (rfl : execLdImm x kk s = _)

/-- ADD_IMM adds its immediate (R151). -/
theorem exec_addImm (x : Reg) (kk : Byte) (s : State) :
    exec (.addImm x kk) s = .next ((s.setReg x (s.reg x + kk)).advance 2) :=
  (rfl : execAddImm x kk s = _)

/-- MOV copies (R153). -/
theorem exec_mov (x y : Reg) (s : State) : exec (.mov x y) s = .next ((s.setReg x (s.reg y)).advance 2) :=
  (rfl : execMov x y s = _)

/-- OR (R154). -/
theorem exec_or (x y : Reg) (s : State) : exec (.or x y) s = .next ((s.setReg x (s.reg x ||| s.reg y)).advance 2) :=
  (rfl : execOr x y s = _)

/-- AND (R155). -/
theorem exec_and (x y : Reg) (s : State) : exec (.and x y) s = .next ((s.setReg x (s.reg x &&& s.reg y)).advance 2) :=
  (rfl : execAnd x y s = _)

/-- XOR (R156). -/
theorem exec_xor (x y : Reg) (s : State) : exec (.xor x y) s = .next ((s.setReg x (s.reg x ^^^ s.reg y)).advance 2) :=
  (rfl : execXor x y s = _)

/-- R159's mask is not needed: a shift left by 7 keeps bit 0 alone. -/
theorem and_one_shiftLeft_seven (v : Byte) : (v &&& 0x01) <<< 7 = v <<< 7 := by
  ext j hj
  by_cases h : j = 7
  · subst h; simp
  · simp [show j < 7 by omega]

/-- ROR is the library's rotation to the right by one (R159). -/
theorem exec_ror (x y : Reg) (s : State) : exec (.ror x y) s = .next ((s.setReg x ((s.reg x).rotateRight 1)).advance 2) := by
  have hrot : (s.reg x >>> 1) ||| ((s.reg x &&& 0x01) <<< 7) = (s.reg x).rotateRight 1 := by
    rw [and_one_shiftLeft_seven]; rfl
  rw [← hrot]
  exact (rfl : execRor x s = _)

/-- ROL is the library's rotation to the left by one (R161). -/
theorem exec_rol (x y : Reg) (s : State) : exec (.rol x y) s = .next ((s.setReg x ((s.reg x).rotateLeft 1)).advance 2) :=
  (rfl : execRol x s = _)

/-- Bit `j` after a rotation to the right was bit `j + 1`, and bit 7 was bit 0. -/
theorem getLsbD_rotateRight_one (v : Byte) (j : Nat) (hj : j < 8) :
    (v.rotateRight 1).getLsbD j = v.getLsbD ((j + 1) % 8) := by
  rw [BitVec.getLsbD_rotateRight, Bool.cond_decide]
  split
  · rw [show (j + 1) % 8 = 1 % 8 + j by omega]
  · rw [show (j + 1) % 8 = j - (8 - 1 % 8) by omega, decide_eq_true hj, Bool.true_and]

/-- Bit `j` after a rotation to the left was bit `j - 1`, and bit 0 was bit 7. -/
theorem getLsbD_rotateLeft_one (v : Byte) (j : Nat) (hj : j < 8) :
    (v.rotateLeft 1).getLsbD j = v.getLsbD ((j + 7) % 8) := by
  rw [BitVec.getLsbD_rotateLeft, Bool.cond_decide]
  split
  · rw [show (j + 7) % 8 = 8 - 1 % 8 + j by omega]
  · rw [show (j + 7) % 8 = j - 1 % 8 by omega, decide_eq_true hj, Bool.true_and]

/-! ## The settled statements -/

/-- Settles O33: both write one byte to Vx, and ADD_IMM's is the sum modulo 2^8. -/
theorem immediateLoadAndAdd : Obligations.ImmediateLoadAndAdd := by
  refine fun x kk => ⟨decodeWord_formatXK_ldImm x kk, decodeWord_formatXK_addImm x kk, fun s => ⟨?ldImm, ?addImm⟩⟩
  case ldImm =>
    exact exists_next_of_exec_setReg (exec_ldImm x kk s)
  case addImm =>
    obtain ⟨t, hexec, hreg, hpc, honly⟩ := exists_next_of_exec_setReg (exec_addImm x kk s)
    exact ⟨t, hexec, by rw [hreg, BitVec.toNat_add], hpc, honly⟩

/-- Settles O34: all four write one byte to Vx, the copy or the bitwise operation of the two registers. -/
theorem copyAndLogicWriteOneRegister : Obligations.CopyAndLogicWriteOneRegister := by
  intro x y
  obtain ⟨hmov, hor, hand, hxor⟩ := decodeWord_formatXY_copyLogic x y
  refine ⟨hmov, hor, hand, hxor, fun s => ⟨?mov, ?or, ?and, ?xor⟩⟩
  case mov =>
    exact exists_next_of_exec_setReg (exec_mov x y s)
  case or =>
    obtain ⟨t, hexec, hreg, hpc, honly⟩ := exists_next_of_exec_setReg (exec_or x y s)
    exact ⟨t, hexec, hpc, honly, fun j => by rw [hreg, BitVec.getLsbD_or]⟩
  case and =>
    obtain ⟨t, hexec, hreg, hpc, honly⟩ := exists_next_of_exec_setReg (exec_and x y s)
    exact ⟨t, hexec, hpc, honly, fun j => by rw [hreg, BitVec.getLsbD_and]⟩
  case xor =>
    obtain ⟨t, hexec, hreg, hpc, honly⟩ := exists_next_of_exec_setReg (exec_xor x y s)
    exact ⟨t, hexec, hpc, honly, fun j => by rw [hreg, BitVec.getLsbD_xor]⟩

/-- Settles O38: both write a rotation of Vx by one bit to Vx. -/
theorem rotatesMoveBitsAround : Obligations.RotatesMoveBitsAround := by
  intro x y
  obtain ⟨hror, hrol⟩ := decodeWord_formatXY_rotates x y
  refine ⟨hror, hrol, fun s => ⟨?ror, ?rol⟩⟩
  case ror =>
    obtain ⟨t, hexec, hreg, hpc, honly⟩ := exists_next_of_exec_setReg (exec_ror x y s)
    exact ⟨t, hexec, hpc, honly, fun j hj => by rw [hreg, getLsbD_rotateRight_one _ j hj]⟩
  case rol =>
    obtain ⟨t, hexec, hreg, hpc, honly⟩ := exists_next_of_exec_setReg (exec_rol x y s)
    exact ⟨t, hexec, hpc, honly, fun j hj => by rw [hreg, getLsbD_rotateLeft_one _ j hj]⟩

end Sys2Proof.Machine
end

section
/-! FlagUpdate and the instructions that use it (spec/43_alu.md R152, R157, R158, R160): the flags as arithmetic conditions,
what ADD, SUB and RSUB answer, and the settled statements about them. -/

namespace Sys2Proof.Machine

/-! ## Decoding -/

/-- The arithmetic words of family 8 (R73). -/
theorem decodeWord_formatXY_arithmetic (x y : Reg) :
    decodeWord (formatXY 0x8 x y 0x4) = .ok (.add x y) ∧ decodeWord (formatXY 0x8 x y 0x5) = .ok (.sub x y) ∧
    decodeWord (formatXY 0x8 x y 0x7) = .ok (.rsub x y) := by
  simp [decodeWord, decodeAlu]

/-! ## The flags of a 16-bit result -/

/-- The low byte of a word is its value modulo 256 (R163). -/
theorem toNat_lowByte (w : Word) : (w.extractLsb' 0 8).toNat = w.toNat % 256 := by
  rw [BitVec.extractLsb'_toNat, Nat.shiftRight_zero]

/-- C by `high_byte_nonzero`: the result does not fit in a byte (R152). -/
theorem carryOf_highByteNonzero_iff (r16 : Word) : carryOf .highByteNonzero r16 = true ↔ 256 ≤ r16.toNat := by
  have hlt : r16.toNat < 2 ^ 16 := r16.isLt
  have hzero : (0 : Byte).toNat = 0 := rfl
  rw [carryOf, bne_iff_ne, ← BitVec.toNat_ne_iff_ne, BitVec.extractLsb'_toNat, Nat.shiftRight_eq_div_pow, hzero]
  omega

/-- C by `literal_bit0`: the result is odd (R152). -/
theorem carryOf_literalBit0_iff (r16 : Word) : carryOf .literalBit0 r16 = true ↔ r16.toNat % 2 = 1 := by
  rw [carryOf, BitVec.getLsbD, Nat.testBit_zero, decide_eq_true_iff]

/-- S by `gt_7F_16bit`: the whole result is above 0x7F (R152). -/
theorem signOf_gt7F16bit_iff (r16 : Word) : signOf .gt7F16bit r16 = true ↔ 0x007F < r16.toNat :=
  decide_eq_true_iff

/-- S by `bit7_of_low_byte` (R152). -/
theorem signOf_bit7OfLowByte_iff (r16 : Word) : signOf .bit7OfLowByte r16 = true ↔ r16.toNat / 128 % 2 = 1 := by
  rw [signOf, BitVec.getLsbD, Nat.testBit_eq_decide_div_mod_eq, decide_eq_true_iff]

/-- Z: the low byte is 0 (R152). -/
theorem zeroOf_iff (r16 : Word) : zeroOf r16 = true ↔ r16.toNat % 256 = 0 := by
  rw [zeroOf, beq_iff_eq, ← BitVec.toNat_inj, toNat_lowByte]
  exact Iff.rfl

/-! ## The bits of the flag byte -/

section
variable {p : Params} (hp : p.wf) (v : Byte) (r16 : Word)
include hp

/-- C stands at its bit: neither S nor Z, written later, is at the same one. -/
theorem flagByte_getLsbD_flagBitC : (flagByte p v r16).getLsbD p.flagBitC.val = carryOf p.carryRule r16 := by
  obtain ⟨hCS, hCZ, -⟩ := hp
  rw [flagByte_getLsbD _ _ _ _ p.flagBitC.isLt, if_neg (Fin.val_ne_of_ne hCZ), if_neg (Fin.val_ne_of_ne hCS), if_pos rfl]

/-- S stands at its bit: Z, written later, is not at the same one. -/
theorem flagByte_getLsbD_flagBitS : (flagByte p v r16).getLsbD p.flagBitS.val = signOf p.signRule r16 := by
  obtain ⟨-, -, hSZ⟩ := hp
  rw [flagByte_getLsbD _ _ _ _ p.flagBitS.isLt, if_neg (Fin.val_ne_of_ne hSZ), if_pos rfl]

end

/-- Z, written last, stands at its bit. -/
theorem flagByte_getLsbD_flagBitZ (p : Params) (v : Byte) (r16 : Word) :
    (flagByte p v r16).getLsbD p.flagBitZ.val = zeroOf r16 := by
  rw [flagByte_getLsbD _ _ _ _ p.flagBitZ.isLt, if_pos rfl]

/-- FlagUpdate writes the flag byte to V15. -/
theorem State.flagUpdate_reg_flagReg (s : State) (r16 : Word) :
    (s.flagUpdate r16).reg flagReg = flagByte s.params (s.reg flagReg) r16 :=
  s.setReg_reg_same flagReg _

/-! ## The 16-bit results -/

/-- The sum of two bytes fits in 16 bits (R157). -/
theorem toNat_zext16_add_zext16 (a b : Byte) : (zext16 a + zext16 b).toNat = a.toNat + b.toNat := by
  have ha : a.toNat < 2 ^ 8 := a.isLt
  have hb : b.toNat < 2 ^ 8 := b.isLt
  rw [BitVec.toNat_add_of_lt (by rw [zext16_toNat, zext16_toNat]; omega), zext16_toNat, zext16_toNat]

/-- The difference of two bytes, modulo 2^16 (R158, R160, D5). -/
theorem toNat_zext16_sub_zext16 (a b : Byte) :
    (zext16 a - zext16 b).toNat = (65536 + a.toNat - b.toNat) % 65536 := by
  have hb : b.toNat < 2 ^ 8 := b.isLt
  rw [BitVec.toNat_sub, zext16_toNat, zext16_toNat]
  omega

/-! ## What ADD, SUB and RSUB answer -/

/-- ADD ends on the sum (R157). -/
theorem exec_add (x y : Reg) (s : State) :
    exec (.add x y) s = .next (s.finishArith x (zext16 (s.reg x) + zext16 (s.reg y))) :=
  (rfl : execAdd x y s = _)

/-- SUB ends on Vx - Vy (R158). -/
theorem exec_sub (x y : Reg) (s : State) :
    exec (.sub x y) s = .next (s.finishArith x (zext16 (s.reg x) - zext16 (s.reg y))) :=
  (rfl : execSub x y s = _)

/-- RSUB ends on Vy - Vx (R160). -/
theorem exec_rsub (x y : Reg) (s : State) :
    exec (.rsub x y) s = .next (s.finishArith x (zext16 (s.reg y) - zext16 (s.reg x))) :=
  (rfl : execRsub x y s = _)

/-- The three have one meaning, given the 16-bit result by its value (R157, R158, R160). -/
theorem exec_arithmetic (x y : Reg) (s : State) (i : Instr) (r16 : Word)
    (h : (i = .add x y ∧ r16.toNat = (s.reg x).toNat + (s.reg y).toNat) ∨
      (i = .sub x y ∧ r16.toNat = (65536 + (s.reg x).toNat - (s.reg y).toNat) % 65536) ∨
      (i = .rsub x y ∧ r16.toNat = (65536 + (s.reg y).toNat - (s.reg x).toNat) % 65536)) :
    exec i s = .next (s.finishArith x r16) := by
  obtain ⟨rfl, hr⟩ | ⟨rfl, hr⟩ | ⟨rfl, hr⟩ := h
  · rw [exec_add, BitVec.eq_of_toNat_eq (hr.trans (toNat_zext16_add_zext16 _ _).symm)]
  · rw [exec_sub, BitVec.eq_of_toNat_eq (hr.trans (toNat_zext16_sub_zext16 _ _).symm)]
  · rw [exec_rsub, BitVec.eq_of_toNat_eq (hr.trans (toNat_zext16_sub_zext16 _ _).symm)]

/-- FlagUpdate leaves all but V15 alone. -/
theorem State.onlyRegs_flagUpdate (s : State) (r16 : Word) : s.onlyRegs (s.flagUpdate r16) [flagReg] :=
  s.onlyRegs_setReg flagReg _

/-- The common end of the three leaves all but Vx, V15 and `pc` alone. -/
theorem State.onlyRegs_finishArith (s : State) (x : Reg) (r16 : Word) : s.onlyRegs (s.finishArith x r16) [x, flagReg] :=
  ((s.onlyRegs_setReg x _).trans (State.onlyRegs_flagUpdate _ r16)).advance 2

/-- A destination other than V15 keeps the low byte: FlagUpdate does not reach it. -/
theorem State.finishArith_reg_of_ne (s : State) (x : Reg) (r16 : Word) (hx : x ≠ flagReg) :
    (s.finishArith x r16).reg x = r16.extractLsb' 0 8 := by
  rw [State.finishArith_eq, State.advance_reg, State.setReg_reg_ne _ _ _ _ hx, State.setReg_reg_same]

/-! ## The settled statements -/

/-- Settles O35: each flag bit of the flag byte is read off, and each rule is its arithmetic condition. -/
theorem flagUpdateWritesThreeBits : Obligations.FlagUpdateWritesThreeBits := by
  intro s r16 hp
  rw [s.flagUpdate_reg_flagReg r16]
  refine ⟨?carry, ?sign, ?zero, fun j hj hC hS hZ => ?others, s.onlyRegs_flagUpdate r16, rfl⟩
  case carry =>
    rw [flagByte_getLsbD_flagBitC hp]
    cases s.params.carryRule with
    | highByteNonzero => exact carryOf_highByteNonzero_iff r16
    | literalBit0 => exact carryOf_literalBit0_iff r16
  case sign =>
    rw [flagByte_getLsbD_flagBitS hp]
    cases s.params.signRule with
    | gt7F16bit => exact signOf_gt7F16bit_iff r16
    | bit7OfLowByte => exact signOf_bit7OfLowByte_iff r16
  case zero =>
    rw [flagByte_getLsbD_flagBitZ]
    exact zeroOf_iff r16
  case others => rw [flagByte_getLsbD _ _ _ j hj, if_neg hZ, if_neg hS, if_neg hC]

/-- Settles O36: the three share one end, whose destination write comes before FlagUpdate. -/
theorem arithmeticWritesResultThenFlags : Obligations.ArithmeticWritesResultThenFlags := by
  intro x y
  obtain ⟨hadd, hsub, hrsub⟩ := decodeWord_formatXY_arithmetic x y
  exact ⟨hadd, hsub, hrsub, fun s i r16 h =>
    ⟨s.finishArith x r16, exec_arithmetic x y s i r16 h, rfl,
      ⟨r16.extractLsb' 0 8, toNat_lowByte r16, s.finishArith_reg_of_ne x r16, rfl⟩,
      s.onlyRegs_finishArith x r16⟩⟩

end Sys2Proof.Machine
end

section
/-! The pointer instructions (spec/44_pointer_draw.md R180, spec/45_keys_special.md R204): what LD_I and ADD_I answer in each
state, and the settled statement about them. -/

namespace Sys2Proof.Machine

/-! ## Decoding -/

/-- Every word of family A is a LD_I (R73). -/
theorem decodeWord_formatA_ldI (nnn : Addr) : decodeWord (formatA 0xA nnn) = .ok (.ldI nnn) := by
  simp [decodeWord]

/-- The words of family F with low byte 0x1E are ADD_I (R73). -/
theorem decodeWord_formatXK_addI (x : Reg) : decodeWord (formatXK 0xF x 0x1E) = .ok (.addI x) := by
  simp [decodeWord, decodeSpecial]

/-! ## What a write of the pointer does -/

/-- A write of the pointer keeps its value modulo 4096 (R26). -/
theorem State.setI_I_toNat (s : State) (v : Word) : (s.setI v).I.toNat = v.toNat % 4096 := by
  rw [State.setI_I, BitVec.toNat_and]
  exact Nat.and_two_pow_sub_one_eq_mod v.toNat 12

/-- The common shape of LD_I and ADD_I: where an instruction ends in a write of `v` to the pointer and an advance, I is `v`
modulo 4096 and nothing else but `pc` has changed. -/
theorem exists_next_of_exec_setI {i : Instr} {s : State} {v : Word}
    (h : exec i s = .next ((s.setI v).advance 2)) :
    ∃ t, exec i s = .next t ∧ t.I.toNat = v.toNat % 4096 ∧ t.pc = s.pc + 2 ∧
      s.sameRegsBut t [] ∧ t.sp = s.sp ∧ s.sameMemory t ∧ s.sameDisplay t ∧ s.sameStatus t ∧ s.sameRandom t :=
  ⟨_, h, s.setI_I_toNat v, rfl, fun _ _ => rfl, rfl, fun _ => rfl, ⟨rfl, fun _ _ => rfl⟩, ⟨rfl, rfl, rfl, rfl⟩, rfl, rfl⟩

/-! ## What the instructions answer -/

/-- LD_I writes its field to the pointer (R180). -/
theorem exec_ldI (nnn : Addr) (s : State) : exec (.ldI nnn) s = .next ((s.setI (addrOf nnn)).advance 2) :=
  (rfl : execLdI nnn s = _)

/-- ADD_I writes the 16-bit sum to the pointer (R204). -/
theorem exec_addI (x : Reg) (s : State) : exec (.addI x) s = .next ((s.setI (s.I + zext16 (s.reg x))).advance 2) :=
  (rfl : execAddI x s = _)

/-- A field is its own value modulo 4096. -/
theorem toNat_addrOf_mod (nnn : Addr) : (addrOf nnn).toNat % 4096 = nnn.toNat := by
  rw [addrOf_toNat]
  exact Nat.mod_eq_of_lt nnn.isLt

/-- The wrap of the 16-bit sum is lost in the wrap modulo 4096, as 4096 divides 2^16 (R204). -/
theorem toNat_add_zext16_mod (v : Word) (b : Byte) : (v + zext16 b).toNat % 4096 = (v.toNat + b.toNat) % 4096 := by
  rw [BitVec.toNat_add, zext16_toNat]
  exact Nat.mod_mod_of_dvd _ (by decide)

/-! ## The settled statement -/

/-- Settles O42: both only write the pointer, which keeps the value written modulo 4096. -/
theorem pointerSetAndAdd : Obligations.PointerSetAndAdd := by
  refine ⟨decodeWord_formatA_ldI, decodeWord_formatXK_addI, fun s nnn x => ⟨?ldI, ?addI⟩⟩
  case ldI =>
    obtain ⟨t, hexec, hI, hrest⟩ := exists_next_of_exec_setI (exec_ldI nnn s)
    exact ⟨t, hexec, hI.trans (toNat_addrOf_mod nnn), hrest⟩
  case addI =>
    obtain ⟨t, hexec, hI, hrest⟩ := exists_next_of_exec_setI (exec_addI x s)
    exact ⟨t, hexec, hI.trans (toNat_add_zext16_mod s.I (s.reg x)), hrest⟩

end Sys2Proof.Machine
end

section
/-! DRW (spec/44_pointer_draw.md R181 to R184, spec/60_exceptions.md R226, R227): where a sprite bit is placed, that the
cells of one sprite are distinct, what DRW answers in each state, and the settled statement about it. -/

namespace Sys2Proof.Machine

/-! ## Decoding -/

/-- Every word of family D is a DRW (R73). -/
theorem decodeWord_formatXY_drw (x y : Reg) (n : Fin 16) : decodeWord (formatXY 0xD x y (nib n)) = .ok (.drw x y n) := by
  simp [decodeWord]

/-! ## Where one bit is placed -/

/-- Off screen is one of the two bounds passed (R227). -/
theorem onScreen_eq_false_iff (col rw : Nat) : onScreen col rw = false ↔ 64 ≤ col ∨ 32 ≤ rw := by
  rw [← Bool.not_eq_true, onScreen_iff]
  omega

/-- Without wrapping only a bit on screen has a cell (R184). -/
theorem placedAt_iff_onScreen {edge : DrawEdge} (hedge : edge ≠ .wrap) (col rw c : Nat) :
    placedAt edge col rw c ↔ onScreen col rw = true ∧ c = col + 64 * rw := by
  rw [onScreen_iff, and_assoc]
  cases edge with
  | wrap => exact absurd rfl hedge
  | clip => rfl
  | fault => rfl

/-- The model places a bit at the cell R184 names. -/
theorem place_eq_some_iff (edge : DrawEdge) (col rw c : Nat) :
    place edge col rw = .ok (some c) ↔ placedAt edge col rw c := by
  cases edge with
  | wrap => simp [place_wrap, placedAt, eq_comm]
  | clip =>
    rw [place_clip, placedAt_iff_onScreen (by decide)]
    cases onScreen col rw <;> simp [eq_comm]
  | fault =>
    rw [place_fault, placedAt_iff_onScreen (by decide)]
    cases onScreen col rw <;> simp [eq_comm]

/-- A bit cannot be placed exactly where DRAW_EDGE = fault and it is off screen (R184, R227). -/
theorem place_eq_error_iff (edge : DrawEdge) (col rw : Nat) :
    place edge col rw = .error .framebufferBounds ↔ edge = .fault ∧ (64 ≤ col ∨ 32 ≤ rw) := by
  rw [← onScreen_eq_false_iff]
  cases edge with
  | wrap => simp [place_wrap]
  | clip => simp [place_clip]
  | fault =>
    rw [place_fault]
    cases onScreen col rw <;> simp

/-- Bits less than 64 columns and 32 rows apart are placed at different cells: no two wrap onto each other. -/
theorem placedAt_inj {edge : DrawEdge} {x0 y0 col rw col' rw' c : Nat}
    (hcol : x0 ≤ col ∧ col < x0 + 64) (hcol' : x0 ≤ col' ∧ col' < x0 + 64)
    (hrw : y0 ≤ rw ∧ rw < y0 + 32) (hrw' : y0 ≤ rw' ∧ rw' < y0 + 32)
    (h : placedAt edge col rw c) (h' : placedAt edge col' rw' c) : col = col' ∧ rw = rw' := by
  cases edge <;> simp only [placedAt] at h h' <;> omega

/-! ## The cells of all the bits are distinct (R181) -/

/-- The columns of the bits of a row are distinct. -/
theorem rowColumns_nodup (order : DrawBitOrder) (x0 : Nat) (row : Byte) : (rowColumns order x0 row).Nodup := by
  refine List.Nodup.map_on (fun b hb c hc h => ?_) (List.nodup_range.filter _)
  exact columnOffset_inj order b c (List.mem_range.1 (List.mem_of_mem_filter hb))
    (List.mem_range.1 (List.mem_of_mem_filter hc)) (Nat.add_left_cancel h)

/-- The targets of a sprite are distinct: within a row the columns are, and a later row's targets are in a later row. -/
theorem spriteTargets_nodup (order : DrawBitOrder) (x0 y0 : Nat) (rows : List Byte) :
    (spriteTargets order x0 y0 rows).Nodup := by
  induction rows generalizing y0 with
  | nil => exact List.nodup_nil
  | cons row rows ih =>
    refine List.Nodup.append ((rowColumns_nodup order x0 row).map fun c d h => (Prod.mk.inj h).1) (ih (y0 + 1)) ?_
    rintro ⟨col, rw⟩ hhead hrest
    obtain ⟨c, -, hc⟩ := List.mem_map.1 hhead
    obtain ⟨r, -, -, -, -, -, hr⟩ := (mem_spriteTargets order x0 (y0 + 1) rows col rw).1 hrest
    have hrw : y0 = rw := (Prod.mk.inj hc).2
    omega

/-- Placing a first target and the rest: the first adds its cell, if it has one, to those of the rest. -/
theorem placeAll_cons_eq_ok {edge : DrawEdge} {p : Nat × Nat} {rest : List (Nat × Nat)} {cells : List Nat}
    (h : placeAll edge (p :: rest) = .ok cells) :
    ∃ o cells', place edge p.1 p.2 = .ok o ∧ placeAll edge rest = .ok cells' ∧ cells = o.toList ++ cells' := by
  obtain ⟨col, rw⟩ := p
  rw [placeAll] at h
  split at h
  · cases h
  · cases h
  · cases h; exact ⟨none, _, ‹_›, ‹_›, rfl⟩
  · cases h; exact ⟨some _, _, ‹_›, ‹_›, rfl⟩

/-- Where they can be placed at all, the cells are the places of the targets (R184). -/
theorem mem_of_placeAll_eq_ok {edge : DrawEdge} {targets : List (Nat × Nat)} {cells : List Nat}
    (h : placeAll edge targets = .ok cells) (c : Nat) :
    c ∈ cells ↔ ∃ col rw, (col, rw) ∈ targets ∧ placedAt edge col rw c := by
  obtain ⟨cells', hok, -, hmem⟩ | ⟨herr, -⟩ := placeAll_cases edge targets
  · obtain rfl : cells = cells' := Except.ok.inj (h.symm.trans hok)
    simp only [hmem, place_eq_some_iff, Prod.exists]
  · cases h.symm.trans herr

/-- Distinct targets that are placed at distinct cells give distinct cells. -/
theorem placeAll_nodup {edge : DrawEdge} {targets : List (Nat × Nat)} {cells : List Nat}
    (h : placeAll edge targets = .ok cells) (hd : targets.Nodup)
    (hinj : ∀ p ∈ targets, ∀ q ∈ targets, ∀ c, placedAt edge p.1 p.2 c → placedAt edge q.1 q.2 c → p = q) :
    cells.Nodup := by
  induction targets generalizing cells with
  | nil => cases h; exact List.nodup_nil
  | cons p rest ih =>
    obtain ⟨o, cells', hp, hrest, rfl⟩ := placeAll_cons_eq_ok h
    obtain ⟨hnotMem, hd'⟩ := List.nodup_cons.1 hd
    have hcells' : cells'.Nodup := ih hrest hd' fun q hq r hr =>
      hinj q (List.mem_cons_of_mem p hq) r (List.mem_cons_of_mem p hr)
    cases o with
    | none => exact hcells'
    | some c =>
      refine List.nodup_cons.2 ⟨fun hc => ?_, hcells'⟩
      obtain ⟨col, rw, hq, hplaced⟩ := (mem_of_placeAll_eq_ok hrest c).1 hc
      have heq : p = (col, rw) := hinj p List.mem_cons_self (col, rw) (List.mem_cons_of_mem p hq) c
        ((place_eq_some_iff edge p.1 p.2 c).1 hp) hplaced
      exact hnotMem (heq ▸ hq)

/-- Every target of a sprite of at most 32 rows lies in the 64 columns and 32 rows from the sprite's first. -/
theorem bounds_of_mem_spriteTargets {order : DrawBitOrder} {x0 y0 : Nat} {rows : List Byte} (hrows : rows.length ≤ 32)
    {p : Nat × Nat} (hp : p ∈ spriteTargets order x0 y0 rows) :
    (x0 ≤ p.1 ∧ p.1 < x0 + 64) ∧ (y0 ≤ p.2 ∧ p.2 < y0 + 32) := by
  obtain ⟨r, hr, b, -, -, hcol, hrw⟩ := (mem_spriteTargets order x0 y0 rows p.1 p.2).1 hp
  have hoff := columnOffset_le order b
  omega

/-- "Under every parameter value the cells of one DRW are distinct" (R181): a sprite is too small to wrap onto itself. -/
theorem placeAll_spriteTargets_nodup {edge : DrawEdge} {order : DrawBitOrder} {x0 y0 : Nat} {rows : List Byte}
    {cells : List Nat} (hrows : rows.length ≤ 32) (h : placeAll edge (spriteTargets order x0 y0 rows) = .ok cells) :
    cells.Nodup := by
  refine placeAll_nodup h (spriteTargets_nodup order x0 y0 rows) fun p hp q hq c hpc hqc => ?_
  obtain ⟨hpcol, hprw⟩ := bounds_of_mem_spriteTargets hrows hp
  obtain ⟨hqcol, hqrw⟩ := bounds_of_mem_spriteTargets hrows hq
  obtain ⟨hcol, hrw⟩ := placedAt_inj hpcol hqcol hprw hqrw hpc hqc
  exact Prod.ext hcol hrw

/-! ## The sprite of a DRW -/

/-- The (column, row) pairs of a DRW's sprite: the list the model places. -/
def State.drawTargets (s : State) (x y : Reg) (n : Fin 16) : List (Nat × Nat) :=
  spriteTargets s.params.drawBitOrder (s.reg x).toNat (s.reg y).toNat (s.spriteRows n)

/-- The model's column offset is `off(b)` (R183). -/
theorem columnOffset_eq_offsetOfBit (order : DrawBitOrder) (b : Nat) : columnOffset order b = offsetOfBit order b := by
  cases order <;> rfl

/-- The targets are the sprite's set bits (R181, R182). -/
theorem State.mem_drawTargets_iff (s : State) (x y : Reg) (n : Fin 16) (col rw : Nat) :
    (col, rw) ∈ s.drawTargets x y n ↔ s.spriteHits x y n col rw := by
  have hrow (r : Nat) (hr : r < (s.spriteRows n).length) : (s.spriteRows n)[r] = s.mem.read (s.I.toNat + r) := by
    simp [State.spriteRows]
  simp only [State.drawTargets, State.spriteHits, mem_spriteTargets, hrow, columnOffset_eq_offsetOfBit,
    s.spriteRows_length, Nat.lt_succ_iff, exists_prop, exists_and_left]

/-- With the sprite in memory its targets are placed (R182). -/
theorem State.drawCells_of_lt (s : State) (x y : Reg) (n : Fin 16) (h : s.I.toNat + n.val < 4096) :
    s.drawCells x y n = placeAll s.params.drawEdge (s.drawTargets x y n) :=
  if_pos ((s.spriteInMemory_iff n).2 h)

/-- With a sprite byte outside memory no bit is looked at (R226, R228). -/
theorem State.drawCells_of_ge (s : State) (x y : Reg) (n : Fin 16) (h : 4096 ≤ s.I.toNat + n.val) :
    s.drawCells x y n = .error .memoryBounds :=
  if_neg fun hin => absurd ((s.spriteInMemory_iff n).1 hin) (Nat.not_lt.2 h)

/-- Some target cannot be placed exactly where DRAW_EDGE = fault and the sprite leaves the screen (R227). -/
theorem State.exists_place_error_iff (s : State) (x y : Reg) (n : Fin 16) :
    (∃ p ∈ s.drawTargets x y n, place s.params.drawEdge p.1 p.2 = .error .framebufferBounds) ↔
      s.params.drawEdge = .fault ∧ s.spriteLeavesScreen x y n := by
  simp only [Prod.exists, s.mem_drawTargets_iff, place_eq_error_iff, State.spriteLeavesScreen]
  constructor
  · rintro ⟨col, rw, hhit, hedge, hoff⟩; exact ⟨hedge, col, rw, hhit, hoff⟩
  · rintro ⟨hedge, col, rw, hhit, hoff⟩; exact ⟨col, rw, hhit, hedge, hoff⟩

/-- Everything the set `T` of a DRW can be (R181): a fault of memory, a fault of the screen, or each covered cell once. -/
theorem State.drawCells_cases (s : State) (x y : Reg) (n : Fin 16) :
    (4096 ≤ s.I.toNat + n.val ∧ s.drawCells x y n = .error .memoryBounds) ∨
    (s.I.toNat + n.val < 4096 ∧ s.params.drawEdge = .fault ∧ s.spriteLeavesScreen x y n ∧
      s.drawCells x y n = .error .framebufferBounds) ∨
    (s.I.toNat + n.val < 4096 ∧ ¬(s.params.drawEdge = .fault ∧ s.spriteLeavesScreen x y n) ∧
      ∃ cells, s.drawCells x y n = .ok cells ∧ cells.Nodup ∧ ∀ c, c ∈ cells ↔ s.spriteCovers x y n c) := by
  obtain hge | hlt := (Nat.lt_or_ge (s.I.toNat + n.val) 4096).symm
  · exact .inl ⟨hge, s.drawCells_of_ge x y n hge⟩
  right
  rw [s.drawCells_of_lt x y n hlt, ← s.exists_place_error_iff x y n]
  obtain ⟨cells, hok, hplaced, -⟩ | ⟨herr, hex⟩ := placeAll_cases s.params.drawEdge (s.drawTargets x y n)
  · have hnone : ¬∃ p ∈ s.drawTargets x y n, place s.params.drawEdge p.1 p.2 = .error .framebufferBounds := by
      rintro ⟨p, hp, herr⟩
      obtain ⟨o, ho⟩ := hplaced p hp
      cases ho.symm.trans herr
    have hrows : (s.spriteRows n).length ≤ 32 := by
      rw [s.spriteRows_length]; omega
    have hcovers (c : Nat) : c ∈ cells ↔ s.spriteCovers x y n c := by
      simp only [mem_of_placeAll_eq_ok hok c, s.mem_drawTargets_iff, State.spriteCovers]
    exact .inr ⟨hlt, hnone, cells, hok, placeAll_spriteTargets_nodup hrows hok, hcovers⟩
  · obtain ⟨hedge, hleaves⟩ := (s.exists_place_error_iff x y n).1 hex
    exact .inl ⟨hlt, hedge, hleaves, herr⟩

/-! ## What DRW answers -/

/-- DRW toggles the cells of `T` in the work buffer, or raises the fault of `T` (R181). -/
theorem exec_drw (x y : Reg) (n : Fin 16) (s : State) :
    exec (.drw x y n) s =
      s.orRaise ((s.drawCells x y n).map fun cells => (s.setWork (toggleCells s.work cells)).advance 2) :=
  (rfl : execDrw x y n s = _)

/-- A DRW whose set `T` is a fault raises it. -/
theorem exec_drw_of_error {x y : Reg} {n : Fin 16} {s : State} {f : Fault} (h : s.drawCells x y n = .error f) :
    exec (.drw x y n) s = .next (s.setFault f) := by
  rw [exec_drw, h]; rfl

/-- A DRW with a set `T` of cells toggles them. -/
theorem exec_drw_of_ok {x y : Reg} {n : Fin 16} {s : State} {cells : List Nat} (h : s.drawCells x y n = .ok cells) :
    exec (.drw x y n) s = .next ((s.setWork (toggleCells s.work cells)).advance 2) := by
  rw [exec_drw, h]; rfl

/-! ## The settled statement -/

/-- Settles O43: the three clauses are the three cases of the set `T`, whose cells are distinct and so toggled once each. -/
theorem drwTogglesTheCoveredCells : Obligations.DrwTogglesTheCoveredCells := by
  refine fun x y n => ⟨decodeWord_formatXY_drw x y n, fun s => ?_⟩
  obtain ⟨hge, herr⟩ | ⟨hlt, hedge, hleaves, herr⟩ | ⟨hlt, hstays, cells, hok, hnodup, hcovers⟩ := s.drawCells_cases x y n
  · exact ⟨fun hle => by omega, fun _ => exec_drw_of_error herr, fun hle => by omega⟩
  · exact ⟨fun _ hon => absurd hleaves (hon hedge), fun hgt => by omega, fun _ _ _ => exec_drw_of_error herr⟩
  · have hwork (c : Nat) : ((s.setWork (toggleCells s.work cells)).advance 2).work.read c =
        if c ∈ cells then s.work.read c ^^^ 1 else s.work.read c := by
      rw [State.advance_work, State.setWork_work, toggleCells_read cells hnodup]
    refine ⟨fun _ _ => ⟨_, exec_drw_of_ok hok, ?pc, fun c hc => ?covered, fun c hc => ?uncovered, fun c => ?front,
      s.setWork_fbSel _, s.sameButDisplay_setWork_advance _ 2⟩, fun hgt => by omega,
      fun _ hedge hleaves => absurd ⟨hedge, hleaves⟩ hstays⟩
    case pc => rw [State.advance_pc, State.setWork_pc]
    case covered => rw [hwork, if_pos ((hcovers c).2 hc)]
    case uncovered => rw [hwork, if_neg fun hmem => hc ((hcovers c).1 hmem)]
    case front => rw [State.advance_front, State.setWork_front]

end Sys2Proof.Machine
end

section
/-! The key instructions and key delivery (spec/45_keys_special.md R200 to R202 and R205): which words decode to SKP, SKNP
and WAITKEY, what they and `receive_input` answer, and the settled statements about them. -/

namespace Sys2Proof.Machine

/-! ## Decoding -/

/-- The two key queries of family E (R73). -/
theorem decodeWord_formatXK_keySkips (x : Reg) :
    decodeWord (formatXK 0xE x 0x9E) = .ok (.skp x) ∧ decodeWord (formatXK 0xE x 0xA1) = .ok (.sknp x) := by
  simp [decodeWord, decodeKey]

/-- The WAITKEY word of family F (R73). -/
theorem decodeWord_formatXK_waitkey (x : Reg) : decodeWord (formatXK 0xF x 0x0A) = .ok (.waitkey x) := by
  simp [decodeWord, decodeSpecial]

/-! ## What a key query reads -/

/-- Where Vx is a key number the query reads that key (R200). -/
theorem State.keyPressed_of_toNat_eq {s : State} {x : Reg} {k : Fin 16} (h : (s.reg x).toNat = k.val) :
    s.keyPressed x = .ok (s.keys.get k) := by
  obtain ⟨j, hj, hkey⟩ | ⟨hge, -⟩ := s.keyPressed_cases x
  · rw [hkey, Fin.ext (hj.trans h)]
  · omega

/-- Where Vx is no key number the query faults (R224). -/
theorem State.keyPressed_of_le {s : State} {x : Reg} (h : 16 ≤ (s.reg x).toNat) :
    s.keyPressed x = .error .keyIndexBounds := by
  obtain ⟨j, hj, -⟩ | ⟨-, herr⟩ := s.keyPressed_cases x
  · omega
  · exact herr

/-! ## What the three instructions answer -/

/-- SKP skips on the key being pressed, or raises the fault of the query (R200). -/
theorem exec_skp (x : Reg) (s : State) : exec (.skp x) s = s.orRaise ((s.keyPressed x).map fun b => s.skipIf b) :=
  (rfl : execSkp x s = _)

/-- SKNP skips on the key not being pressed, or raises the fault of the query (R201). -/
theorem exec_sknp (x : Reg) (s : State) : exec (.sknp x) s = s.orRaise ((s.keyPressed x).map fun b => s.skipIf (!b)) :=
  (rfl : execSknp x s = _)

/-- Where the query gives a key's state, both instructions are one skip, on it and on its negation (R200, R201). -/
theorem exec_keySkips_of_ok {x : Reg} {s : State} {b : Bool} (h : s.keyPressed x = .ok b) :
    exec (.skp x) s = .next (s.skipIf b) ∧ exec (.sknp x) s = .next (s.skipIf (!b)) := by
  rw [exec_skp, exec_sknp, h]; exact ⟨rfl, rfl⟩

/-- Where the query faults, both instructions raise its fault (R224). -/
theorem exec_keySkips_of_error {x : Reg} {s : State} {f : Fault} (h : s.keyPressed x = .error f) :
    exec (.skp x) s = .next (s.setFault f) ∧ exec (.sknp x) s = .next (s.setFault f) := by
  rw [exec_skp, exec_sknp, h]; exact ⟨rfl, rfl⟩

/-- WAITKEY advances and records its register; the order of the two writes does not matter (R202). -/
theorem exec_waitkey (x : Reg) (s : State) : exec (.waitkey x) s = .next ((s.advance 2).setWait (some x)) :=
  (rfl : execWaitkey x s = _)

/-! ## The wait slot -/

/-- A blocked machine's step does nothing (R100, R202). -/
theorem step_of_wait_eq_some {s : State} {x : Reg} (h : s.wait = some x) : step s = .next s :=
  step_idle s (s.idle_iff_ne_none.2 (.inr (.inl (by simp [h]))))

/-- Setting the wait slot after a change of registers and `pc` leaves all but those and the slot alone. -/
theorem State.onlyRegs.frame_setWait {s t : State} {xs : List Reg} (h : s.onlyRegs t xs) (w : Option Reg) :
    let u := t.setWait w
    s.sameRegsBut u xs ∧ u.I = s.I ∧ u.sp = s.sp ∧ s.sameMemory u ∧ s.sameDisplay u ∧
      u.keys = s.keys ∧ u.fault = s.fault ∧ u.params = s.params ∧ s.sameRandom u := by
  obtain ⟨⟨hregs, hI, hsp, hmem, ⟨hkeys, -, hfault, hparams⟩, hrandom⟩, hdisplay⟩ := h
  exact ⟨hregs, hI, hsp, hmem, hdisplay, hkeys, hfault, hparams, hrandom⟩

/-! ## What `receive_input` answers -/

/-- Without a wait a key is dropped (R205). -/
theorem State.receiveInput_of_wait_eq_none {s : State} {k : Nat} (hk : k < 16) (h : s.wait = none) :
    s.receiveInput k = .next s := by
  obtain ⟨-, -, hnext⟩ | ⟨-, r, hr, -⟩ | ⟨hge, -⟩ := s.receiveInput_cases k
  · exact hnext
  · cases h.symm.trans hr
  · omega

/-- With a wait a key goes to the awaited register and the slot is cleared (R205). -/
theorem State.receiveInput_of_wait_eq_some {s : State} {k : Nat} {r : Reg} (hk : k < 16) (h : s.wait = some r) :
    s.receiveInput k = .next ((s.setReg r (BitVec.ofNat 8 k)).setWait none) := by
  obtain ⟨-, hnone, -⟩ | ⟨-, r', hr', hnext⟩ | ⟨hge, -⟩ := s.receiveInput_cases k
  · cases h.symm.trans hnone
  · obtain rfl : r = r' := Option.some.inj (h.symm.trans hr')
    exact hnext
  · omega

/-- A delivered key fits in its register. -/
theorem State.toNat_setReg_ofNat_reg_same (s : State) (r : Reg) {k : Nat} (hk : k < 16) :
    ((s.setReg r (BitVec.ofNat 8 k)).reg r).toNat = k := by
  rw [State.setReg_reg_same, BitVec.toNat_ofNat, Nat.mod_eq_of_lt (by omega)]

/-! ## The settled statements -/

/-- Settles O46: both instructions are one skip on the key's state where the query reads a key, and its fault elsewhere. -/
theorem keySkips : Obligations.KeySkips := by
  intro x
  obtain ⟨hskpWord, hsknpWord⟩ := decodeWord_formatXK_keySkips x
  refine ⟨hskpWord, hsknpWord, fun s => ⟨fun k hk => ?key, fun hge => ?noKey⟩⟩
  case key =>
    obtain ⟨hskp, hsknp⟩ := exec_keySkips_of_ok (State.keyPressed_of_toNat_eq hk)
    exact ⟨⟨_, hskp, s.onlyPc_skipIf _, s.skipIf_pc_of_true, s.skipIf_pc_of_false⟩,
      ⟨_, hsknp, s.onlyPc_skipIf _, fun hup => s.skipIf_pc_of_true (by rw [hup]; rfl),
        fun hdown => s.skipIf_pc_of_false (by rw [hdown]; rfl)⟩⟩
  case noKey => exact exec_keySkips_of_error (State.keyPressed_of_le hge)

/-- Settles O47: WAITKEY writes `pc` and the wait slot alone, and with the slot set the machine is idle. -/
theorem waitkeyBlocks : Obligations.WaitkeyBlocks :=
  fun x => ⟨decodeWord_formatXK_waitkey x, fun s =>
    ⟨_, exec_waitkey x s, rfl, rfl, step_of_wait_eq_some rfl, (s.onlyPc_setPc (s.pc + 2)).frame_setWait (some x)⟩⟩

/-- Settles O48: the two clauses are the two cases of `receive_input` of a key number. -/
theorem receiveInputDelivers : Obligations.ReceiveInputDelivers :=
  fun s _ hk => ⟨State.receiveInput_of_wait_eq_none hk, fun r hr =>
    ⟨_, State.receiveInput_of_wait_eq_some hk hr, s.toNat_setReg_ofNat_reg_same r hk, rfl, rfl,
      (s.onlyRegs_setReg r _).frame_setWait none⟩⟩

end Sys2Proof.Machine
end

section
/-! Undefined encodings (spec/30_encoding.md R76, spec/40_fetch_decode.md R106): that the decoder rejects the words R76 lists
and no others, and the settled statement about what a step does with one. -/

namespace Sys2Proof

/-! ## The fields a word is told undefined by -/

/-- The family is the word's top nibble, as a number. -/
theorem fieldF_toNat (w : Word) : (fieldF w).toNat = w.toNat / 4096 := by
  have hw : w.toNat < 2 ^ 16 := w.isLt
  rw [fieldF, BitVec.extractLsb'_toNat, Nat.shiftRight_eq_div_pow]
  omega

/-- The low nibble, as a number. -/
theorem fieldN_toNat (w : Word) : (fieldN w).toNat = w.toNat % 16 := by
  rw [fieldN, BitVec.extractLsb'_toNat, Nat.shiftRight_zero]

/-- The low byte, as a number. -/
theorem fieldKK_toNat (w : Word) : (fieldKK w).toNat = w.toNat % 256 := Machine.toNat_lowByte w

/-- R76's list, read off the fields the decoder dispatches on. -/
theorem undefinedEncoding_iff_fields (w : Word) :
    undefinedEncoding w ↔
      fieldF w = 0x9#4 ∨
      (fieldF w = 0x8#4 ∧ fieldN w ∈ [0x8#4, 0x9#4, 0xA#4, 0xB#4, 0xC#4, 0xD#4, 0xF#4]) ∨
      (fieldF w = 0xE#4 ∧ fieldKK w ∉ [0x9E#8, 0xA1#8]) ∨
      (fieldF w = 0xF#4 ∧ fieldKK w ∉ [0x07#8, 0x0A#8, 0x15#8, 0x18#8, 0x1E#8]) := by
  simp only [undefinedEncoding, ← fieldF_toNat, ← fieldN_toNat, ← fieldKK_toNat, List.mem_cons, List.not_mem_nil,
    or_false, ← BitVec.toNat_inj]
  rfl

/-! ## What each decoder rejects -/

/-- Family 8 rejects the low nibbles without an operation. -/
theorem decodeAlu_eq_error_iff (w : Word) :
    (∃ e, decodeAlu w = .error e) ↔ fieldN w ∈ [0x8#4, 0x9#4, 0xA#4, 0xB#4, 0xC#4, 0xD#4, 0xF#4] := by
  have hother : ∀ n : BitVec 4, n ∉ [0x0#4, 0x1#4, 0x2#4, 0x3#4, 0x4#4, 0x5#4, 0x6#4, 0x7#4, 0xE#4] →
      n ∈ [0x8#4, 0x9#4, 0xA#4, 0xB#4, 0xC#4, 0xD#4, 0xF#4] := by decide
  unfold decodeAlu
  split
  case h_10 h0 h1 h2 h3 h4 h5 h6 h7 hE =>
    refine iff_of_true ⟨_, rfl⟩ (hother _ ?_)
    simp only [List.mem_cons, List.not_mem_nil, or_false, not_or]
    exact ⟨h0, h1, h2, h3, h4, h5, h6, h7, hE⟩
  all_goals next hop => simp [hop]

/-- Family E rejects the low bytes without a key query. -/
theorem decodeKey_eq_error_iff (w : Word) : (∃ e, decodeKey w = .error e) ↔ fieldKK w ∉ [0x9E#8, 0xA1#8] := by
  simp only [List.mem_cons, List.not_mem_nil, or_false, not_or]
  unfold decodeKey
  split
  case h_3 hskp hsknp => exact iff_of_true ⟨_, rfl⟩ ⟨hskp, hsknp⟩
  all_goals next hop => simp [hop]

/-- Family F rejects the low bytes without an operation. -/
theorem decodeSpecial_eq_error_iff (w : Word) :
    (∃ e, decodeSpecial w = .error e) ↔ fieldKK w ∉ [0x07#8, 0x0A#8, 0x15#8, 0x18#8, 0x1E#8] := by
  simp only [List.mem_cons, List.not_mem_nil, or_false, not_or]
  unfold decodeSpecial
  split
  case h_6 hgetTimer hwaitkey hsetTimer hsetAudio haddI =>
    exact iff_of_true ⟨_, rfl⟩ ⟨hgetTimer, hwaitkey, hsetTimer, hsetAudio, haddI⟩
  all_goals next hop => simp [hop]

/-- The decoder rejects the undefined encodings and no other word: family 9, and what families 8, E and F reject (R76). -/
theorem decodeWord_eq_error_iff (w : Word) : (∃ e, decodeWord w = .error e) ↔ undefinedEncoding w := by
  have hother : ∀ f : BitVec 4, f ∉ [0x0#4, 0x1#4, 0x2#4, 0x3#4, 0x4#4, 0x5#4, 0x6#4, 0x7#4, 0x8#4, 0xA#4, 0xB#4, 0xC#4,
      0xD#4, 0xE#4, 0xF#4] → f = 0x9#4 := by decide
  rw [undefinedEncoding_iff_fields]
  unfold decodeWord
  split
  case h_9 hfamily => simp [hfamily, decodeAlu_eq_error_iff]
  case h_14 hfamily => simp [hfamily, decodeKey_eq_error_iff]
  case h_15 hfamily => simp [hfamily, decodeSpecial_eq_error_iff]
  case h_16 h0 h1 h2 h3 h4 h5 h6 h7 h8 hA hB hC hD hE hF =>
    refine iff_of_true ⟨_, rfl⟩ (.inl (hother _ ?_))
    simp only [List.mem_cons, List.not_mem_nil, or_false, not_or]
    exact ⟨h0, h1, h2, h3, h4, h5, h6, h7, h8, hA, hB, hC, hD, hE, hF⟩
  all_goals next hfamily => simp [hfamily]

end Sys2Proof

namespace Sys2Proof.Machine

/-! ## The step on an undefined encoding -/

/-- A running state whose word is undefined takes the undefined-encoding behaviour (R106). -/
theorem step_of_undefinedEncoding (s : State) (hs : s.running)
    (h : undefinedEncoding (s.mem.readWord s.pc.toNat)) : step s = execUndefined s := by
  obtain ⟨e, he⟩ := (decodeWord_eq_error_iff _).2 h
  exact step_of_decodeWord_error s hs e he

/-! ## The settled statement -/

/-- Settles O7: the two clauses are the two cases of the undefined-encoding behaviour. -/
theorem undefinedEncodingFollowsPolicy : Obligations.UndefinedEncodingFollowsPolicy := by
  intro s hrun hundef
  rw [step_of_undefinedEncoding s hrun hundef]
  obtain ⟨hpolicy, hexec⟩ | ⟨hpolicy, hexec⟩ := execUndefined_cases s
  · exact ⟨fun _ => hexec, fun hnoop => (by cases hpolicy.symm.trans hnoop)⟩
  · exact ⟨fun hfault => (by cases hpolicy.symm.trans hfault), fun _ => ⟨_, hexec, rfl, s.onlyPc_setPc (s.pc + 2)⟩⟩

end Sys2Proof.Machine
end

section
/-! The faults (spec/60_exceptions.md R220 to R228, R237): which instruction raises which fault and where, that a step either
keeps the fault status or only sets it, and the settled statements about them. -/

namespace Sys2Proof.Machine

/-! ## What an instruction raises -/

/-- RND writes Vx and uses up one sample (R162). -/
theorem exec_rnd (x : Reg) (kk : Byte) (s : State) :
    exec (.rnd x kk) s = .next ((s.rndSampled.setReg x (s.rndByte &&& kk)).advance 2) :=
  (rfl : execRnd x kk s = _)

/-- The faults an instruction can raise in a state, each under the condition that raises it (R221, R222, R224, R226,
R227). -/
inductive State.InstrRaises (s : State) : Instr → Fault → Prop where
  | ret : s.sp = 0x0FFF ∨ (s.sp + 2).toNat < 1 ∨ 4096 ≤ (s.sp + 2).toNat → s.InstrRaises .ret .stackUnderflow
  | call (nnn : Addr) : s.sp.toNat < 1 ∨ 4096 ≤ s.sp.toNat → s.InstrRaises (.call nnn) .stackOverflow
  | skp (x : Reg) : 16 ≤ (s.reg x).toNat → s.InstrRaises (.skp x) .keyIndexBounds
  | sknp (x : Reg) : 16 ≤ (s.reg x).toNat → s.InstrRaises (.sknp x) .keyIndexBounds
  | drwMemory (x y : Reg) (n : Fin 16) : 0x0FFF < s.I.toNat + n.val → s.InstrRaises (.drw x y n) .memoryBounds
  | drwScreen (x y : Reg) (n : Fin 16) : s.I.toNat + n.val ≤ 0x0FFF → s.params.drawEdge = .fault →
      s.spriteLeavesScreen x y n → s.InstrRaises (.drw x y n) .framebufferBounds

/-- A result that is precise about faults: the status is kept, or a fault with a cause in `P` is set and nothing else
changes (R8, R220). -/
def State.PreciseResult (s : State) (P : Fault → Prop) (r : Result) : Prop :=
  (∃ t, r = .next t ∧ t.fault = s.fault) ∨ ∃ f, r = .next (s.setFault f) ∧ P f

/-- A precise result stays one under a weaker cause. -/
theorem State.PreciseResult.imp {s : State} {P Q : Fault → Prop} {r : Result} (h : s.PreciseResult P r)
    (hPQ : ∀ f, P f → Q f) : s.PreciseResult Q r :=
  Or.imp_right (fun ⟨f, hr, hP⟩ => ⟨f, hr, hPQ f hP⟩) h

/-- Where a precise result is a next state, that state keeps the fault status or is the old one with a fault set. -/
theorem State.PreciseResult.of_eq_next {s t : State} {P : Fault → Prop} {r : Result} (h : s.PreciseResult P r)
    (hr : r = .next t) : t.fault = s.fault ∨ ∃ f, t = s.setFault f ∧ P f := by
  obtain ⟨u, hu, hkept⟩ | ⟨f, hf, hP⟩ := h
  · cases hu.symm.trans hr; exact .inl hkept
  · cases hf.symm.trans hr; exact .inr ⟨f, rfl, hP⟩

/-- A skip keeps the fault status. -/
@[simp] theorem State.skipIf_fault (s : State) (c : Bool) : (s.skipIf c).fault = s.fault := by
  cases c <;> rfl

/-- A RET pops and jumps, or only raises StackUnderflow (R221). -/
theorem exec_ret_precise (s : State) : s.PreciseResult (s.InstrRaises .ret) (exec .ret s) := by
  obtain ⟨-, -, -, hexec⟩ | ⟨hout, hexec⟩ := exec_ret_cases s
  · exact .inl ⟨_, hexec, rfl⟩
  · exact .inr ⟨_, hexec, .ret hout⟩

/-- A CALL pushes and jumps, or only raises StackOverflow (R222). -/
theorem exec_call_precise (nnn : Addr) (s : State) :
    s.PreciseResult (s.InstrRaises (.call nnn)) (exec (.call nnn) s) := by
  obtain ⟨-, -, hexec⟩ | ⟨hout, hexec⟩ := exec_call_cases nnn s
  · exact .inl ⟨_, hexec, rfl⟩
  · exact .inr ⟨_, hexec, .call nnn hout⟩

/-- A key query skips, or only raises KeyIndexBounds (R224). -/
theorem exec_keySkips_precise (x : Reg) (s : State) :
    s.PreciseResult (s.InstrRaises (.skp x)) (exec (.skp x) s) ∧
    s.PreciseResult (s.InstrRaises (.sknp x)) (exec (.sknp x) s) := by
  obtain ⟨k, -, hkey⟩ | ⟨hge, herr⟩ := s.keyPressed_cases x
  · obtain ⟨hskp, hsknp⟩ := exec_keySkips_of_ok hkey
    exact ⟨.inl ⟨_, hskp, s.skipIf_fault _⟩, .inl ⟨_, hsknp, s.skipIf_fault _⟩⟩
  · obtain ⟨hskp, hsknp⟩ := exec_keySkips_of_error herr
    exact ⟨.inr ⟨_, hskp, .skp x hge⟩, .inr ⟨_, hsknp, .sknp x hge⟩⟩

/-- A DRW toggles its cells, or only raises MemoryBounds or FramebufferBounds (R226, R227). -/
theorem exec_drw_precise (x y : Reg) (n : Fin 16) (s : State) :
    s.PreciseResult (s.InstrRaises (.drw x y n)) (exec (.drw x y n) s) := by
  obtain ⟨hge, herr⟩ | ⟨hlt, hedge, hleaves, herr⟩ | ⟨-, -, cells, hok, -, -⟩ := s.drawCells_cases x y n
  · exact .inr ⟨_, exec_drw_of_error herr, .drwMemory x y n hge⟩
  · exact .inr ⟨_, exec_drw_of_error herr, .drwScreen x y n (Nat.le_of_lt_succ hlt) hedge hleaves⟩
  · exact .inl ⟨_, exec_drw_of_ok hok, s.setWork_fault _⟩

/-- Every instruction keeps the fault status, or sets one of its own faults and changes nothing else (R220). -/
theorem exec_precise (i : Instr) (s : State) : s.PreciseResult (s.InstrRaises i) (exec i s) := by
  cases i with
  | ret => exact exec_ret_precise s
  | call nnn => exact exec_call_precise nnn s
  | skp x => exact (exec_keySkips_precise x s).1
  | sknp x => exact (exec_keySkips_precise x s).2
  | drw x y n => exact exec_drw_precise x y n s
  | cls => exact .inl ⟨_, exec_cls s, s.setWork_fault _⟩
  | hlt => exact .inl ⟨_, exec_hlt s, rfl⟩
  | swap => exact .inl ⟨_, exec_swap s, rfl⟩
  | nop0 nnn => exact .inl ⟨_, exec_noOperation s _ (.inl ⟨nnn, rfl⟩), rfl⟩
  | jp nnn => exact .inl ⟨_, exec_jp nnn s, rfl⟩
  | seImm x kk => exact .inl ⟨_, exec_seImm x kk s, s.skipIf_fault _⟩
  | sneImm x kk => exact .inl ⟨_, exec_sneImm x kk s, s.skipIf_fault _⟩
  | seReg x y n => exact .inl ⟨_, exec_seReg x y n s, s.skipIf_fault _⟩
  | ldImm x kk => exact .inl ⟨_, exec_ldImm x kk s, rfl⟩
  | addImm x kk => exact .inl ⟨_, exec_addImm x kk s, rfl⟩
  | mov x y => exact .inl ⟨_, exec_mov x y s, rfl⟩
  | or x y => exact .inl ⟨_, exec_or x y s, rfl⟩
  | and x y => exact .inl ⟨_, exec_and x y s, rfl⟩
  | xor x y => exact .inl ⟨_, exec_xor x y s, rfl⟩
  | add x y => exact .inl ⟨_, exec_add x y s, rfl⟩
  | sub x y => exact .inl ⟨_, exec_sub x y s, rfl⟩
  | ror x y => exact .inl ⟨_, exec_ror x y s, rfl⟩
  | rsub x y => exact .inl ⟨_, exec_rsub x y s, rfl⟩
  | rol x y => exact .inl ⟨_, exec_rol x y s, rfl⟩
  | ldI nnn => exact .inl ⟨_, exec_ldI nnn s, rfl⟩
  | jpV0 nnn => exact .inl ⟨_, exec_jpV0 nnn s, rfl⟩
  | rnd x kk => exact .inl ⟨_, exec_rnd x kk s, s.rndSampled_fault⟩
  | getTimer x => exact .inl ⟨_, exec_noOperation s _ (.inr ⟨x, .inl rfl⟩), rfl⟩
  | waitkey x => exact .inl ⟨_, exec_waitkey x s, rfl⟩
  | setTimer x => exact .inl ⟨_, exec_noOperation s _ (.inr ⟨x, .inr (.inl rfl)⟩), rfl⟩
  | setAudio x => exact .inl ⟨_, exec_noOperation s _ (.inr ⟨x, .inr (.inr rfl)⟩), rfl⟩
  | addI x => exact .inl ⟨_, exec_addI x s, rfl⟩

/-! ## What a step raises -/

/-- The faults a step can raise, in the order of R228: at fetch, at decode, then the instruction's own. -/
inductive State.StepRaises (s : State) : Fault → Prop where
  | fetch : s.pc.toNat = 0x0FFF → s.StepRaises .fetchBounds
  | decode : s.pc.toNat < 0x0FFF → undefinedEncoding (s.mem.readWord s.pc.toNat) → s.params.undefinedPolicy = .fault →
      s.StepRaises .illegalInstruction
  | instr {i : Instr} {f : Fault} : s.pc.toNat < 0x0FFF → decodeWord (s.mem.readWord s.pc.toNat) = .ok i →
      s.InstrRaises i f → s.StepRaises f

/-- A state whose step is not idle has no fault set (R100). -/
theorem State.fault_eq_none_of_idle_eq_false {s : State} (h : s.idle = false) : s.fault = none := by
  by_contra hfault
  rw [s.idle_iff_ne_none.2 (.inl hfault)] at h
  cases h

/-- A faulted machine's step does nothing (R100, R220). -/
theorem step_of_fault_ne_none {s : State} (h : s.fault ≠ none) : step s = .next s :=
  step_idle s (s.idle_iff_ne_none.2 (.inl h))

/-- An undefined encoding is precise: it raises IllegalInstruction under the policy fault, and nothing under noop (R106). -/
theorem execUndefined_precise (s : State) :
    s.PreciseResult (fun f => f = .illegalInstruction ∧ s.params.undefinedPolicy = .fault) (execUndefined s) := by
  obtain ⟨hpolicy, hexec⟩ | ⟨-, hexec⟩ := execUndefined_cases s
  · exact .inr ⟨_, hexec, rfl, hpolicy⟩
  · exact .inl ⟨_, hexec, rfl⟩

/-- A step keeps the fault status, or sets a fault it has a cause for where none was set, and changes nothing else (R220). -/
theorem step_precise (s : State) : s.PreciseResult (fun f => s.fault = none ∧ s.StepRaises f) (step s) := by
  obtain ⟨-, hstep⟩ | ⟨hidle, hpc, hstep⟩ | ⟨hidle, hpc, ⟨i, hi, hstep⟩ | ⟨e, he, hstep⟩⟩ := step_cases s
  · exact .inl ⟨_, hstep, rfl⟩
  · exact .inr ⟨_, hstep, State.fault_eq_none_of_idle_eq_false hidle, .fetch hpc⟩
  · rw [hstep]
    exact (exec_precise i s).imp fun f hf => ⟨State.fault_eq_none_of_idle_eq_false hidle, .instr hpc hi hf⟩
  · rw [hstep]
    refine (execUndefined_precise s).imp ?_
    rintro _ ⟨rfl, hpolicy⟩
    exact ⟨State.fault_eq_none_of_idle_eq_false hidle, .decode hpc ((decodeWord_eq_error_iff _).1 ⟨e, he⟩) hpolicy⟩

/-- FetchBounds is raised at the last address of memory and nowhere else (R223, R228). -/
theorem State.StepRaises.eq_fetchBounds_iff {s : State} {f : Fault} (h : s.StepRaises f) :
    f = .fetchBounds ↔ s.pc.toNat = 0x0FFF := by
  cases h with
  | fetch hpc => exact iff_of_true rfl hpc
  | decode hpc => exact iff_of_false (by decide) hpc.ne
  | instr hpc _ hraises => exact iff_of_false (by rintro rfl; cases hraises) hpc.ne

/-! ## What a transaction does to a set fault -/

/-- Nothing but a reset changes a set fault, and a reset clears it (R220, R240). -/
theorem transact_fault {s t : State} {tr : Transaction} (hfault : s.fault ≠ none) (h : transact tr s = .next t) :
    t.fault = s.fault ∨ ((∃ image, tr = .reset image) ∧ t.fault = none) := by
  cases tr with
  | reset image =>
    have hreset : s.resetImage image = .next t := h
    obtain ⟨-, hnext⟩ | ⟨-, hrefused⟩ := s.resetImage_cases image
    · cases hnext.symm.trans hreset; exact .inr ⟨⟨image, rfl⟩, rfl⟩
    · cases hrefused.symm.trans hreset
  | step => cases (step_of_fault_ne_none hfault).symm.trans h; exact .inl rfl
  | rnd b => cases h; exact .inl rfl
  | setKey k b =>
    have hkey : s.setKey k b = .next t := h
    obtain ⟨hk, hnext⟩ | ⟨-, hrefused⟩ := s.setKey_cases k b
    · cases hnext.symm.trans hkey; exact .inl rfl
    · cases hrefused.symm.trans hkey
  | receiveInput k =>
    have hinput : s.receiveInput k = .next t := h
    obtain ⟨-, -, hnext⟩ | ⟨-, r, -, hnext⟩ | ⟨-, hrefused⟩ := s.receiveInput_cases k
    · cases hnext.symm.trans hinput; exact .inl rfl
    · cases hnext.symm.trans hinput; exact .inl rfl
    · cases hrefused.symm.trans hinput

/-! ## The settled statements -/

/-- Settles O9: a step is precise, an idle one does nothing, and each transaction is looked at in turn. -/
theorem faultsArePreciseAndSticky : Obligations.FaultsArePreciseAndSticky := by
  refine ⟨fun s t hstep hchanged => ?_, fun s => step_of_fault_ne_none, fun s t tr => transact_fault⟩
  obtain hkept | ⟨f, rfl, hnone, -⟩ := (step_precise s).of_eq_next hstep
  · exact absurd hkept hchanged
  · exact ⟨hnone, f, rfl, rfl⟩

/-- Settles O11: the codes are R237's table, and the fault a step sets is one it raises, with that fault's cause. -/
theorem faultsHaveTheirCausesAndCodes : Obligations.FaultsHaveTheirCausesAndCodes := by
  refine ⟨fun s => ?codes, fun s t f w hnone hstep hset hw => ?causes⟩
  case codes =>
    rw [State.faultCode]
    cases s.fault with
    | none => rfl
    | some f => cases f <;> rfl
  case causes =>
    have hword : s.mem.readWord s.pc.toNat = w := hw.symm
    have hraises : s.StepRaises f := by
      obtain hkept | ⟨f', rfl, -, hraises⟩ := (step_precise s).of_eq_next hstep
      · cases hset.symm.trans (hkept.trans hnone)
      · cases hset; exact hraises
    refine ⟨hraises.eq_fetchBounds_iff, ?_⟩
    cases hraises with
    | fetch => trivial
    | decode _ hundef hpolicy => exact ⟨hword ▸ hundef, hpolicy⟩
    | instr _ hdecode hinstr =>
      rw [hword] at hdecode
      cases hinstr with
      | ret => exact hdecode
      | call nnn => exact ⟨nnn, hdecode⟩
      | skp x hge => exact ⟨x, .inl hdecode, hge⟩
      | sknp x hge => exact ⟨x, .inr hdecode, hge⟩
      | drwMemory x y n hgt => exact ⟨x, y, n, hdecode, hgt⟩
      | drwScreen x y n hle hedge hleaves => exact ⟨x, y, n, hdecode, hle, hedge, hleaves⟩

end Sys2Proof.Machine
end

section
/-! The reset transaction (spec/70_reset_and_hazards.md R240, spec/20_memory.md R57): what the reset state holds, what an
image loaded at 0 leaves in memory, and what each length of image is answered. -/

namespace Sys2Proof.Machine

/-! ## The reset state -/

/-- Every register of V holds 0 after reset (R240). -/
@[simp] theorem State.reset_reg (r : Reg) : State.reset.reg r = 0 := Vector.getElem_replicate r.isLt

/-- No key is pressed after reset (R240). -/
@[simp] theorem State.reset_keys_get (k : Fin 16) : State.reset.keys.get k = false := Vector.getElem_replicate k.isLt

/-- Both framebuffers are empty after reset (R240). -/
@[simp] theorem State.reset_fb (b : Fin 2) : State.reset.fb b = [] := ite_self _

/-! ## The loaded image -/

/-- An image loaded at 0 is read back verbatim, and every byte beyond it is 0 (R57, R240). -/
theorem Memory.read_load_zero (image : List Byte) (a : Nat) :
    (Memory.load 0 image).read a = if a < image.length then image.getD a 0 else 0 := by
  have hread : (Memory.load 0 image).read a = image.getD a 0 := by
    simpa using Memory.read_load image 0 a
  rw [hread]
  split
  case isTrue => rfl
  case isFalse hbeyond => exact List.getD_eq_default _ _ (Nat.le_of_not_lt hbeyond)

/-! ## The settled statement -/

/-- Settles O1: the two clauses are the two cases of a reset; a fitting image answers the reset state but for the loaded
memory and the environment's parameters and random supply. -/
theorem resetLoadsImageAndClearsState : Obligations.ResetLoadsImageAndClearsState := by
  refine fun s image => ⟨fun hfits => ?fits, fun hlong => ?long⟩
  case fits =>
    obtain ⟨-, hnext⟩ | ⟨hlong, -⟩ := s.resetImage_cases image
    · exact ⟨_, hnext, State.reset_reg, rfl, rfl, rfl, Memory.read_load_zero image,
        fun b c => congrArg (Memory.read · c) (State.reset_fb b), rfl, State.reset_keys_get, rfl, rfl⟩
    · omega
  case long =>
    obtain ⟨hfits, -⟩ | ⟨-, hrefused⟩ := s.resetImage_cases image
    · omega
    · exact hrefused

end Sys2Proof.Machine
end

section
/-! The decoder and the encoder undo each other, and the decoder follows the opcode table (spec/30_encoding.md R71 to R76):
the settled statements about them. -/

namespace Sys2Proof

/-! ## The words that no earlier part decodes -/

/-- The four reserved words of family 0 (R73, R74). -/
theorem decodeWord_reservedControl :
    decodeWord (formatA 0x0 0x0E0) = .ok .cls ∧ decodeWord (formatA 0x0 0x0E1) = .ok .hlt ∧
    decodeWord (formatA 0x0 0x0E2) = .ok .swap ∧ decodeWord (formatA 0x0 0x0EE) = .ok .ret := by
  decide

/-- Every word of family C is a RND (R73). -/
theorem decodeWord_formatXK_rnd (x : Reg) (kk : Byte) : decodeWord (formatXK 0xC x kk) = .ok (.rnd x kk) := by
  simp [decodeWord]

/-! ## Decoding undoes encoding -/

/-- The one instruction with a condition: a no-operation has none of the four reserved fields (R120). -/
theorem Instr.wf_nop0_iff (nnn : Addr) : (Instr.nop0 nnn).wf = true ↔ nnn ∉ reservedControl := by
  simp [Instr.wf]

open Machine in
/-- The word of a well-formed instruction decodes to it, format by format. -/
theorem decodeWord_encode (i : Instr) (h : i.wf = true) : decodeWord (encode i) = .ok i := by
  obtain ⟨hcls, hhlt, hswap, hret⟩ := decodeWord_reservedControl
  cases i with
  | cls => exact hcls
  | hlt => exact hhlt
  | swap => exact hswap
  | ret => exact hret
  | nop0 nnn => exact decodeWord_formatA_nop0 nnn ((Instr.wf_nop0_iff nnn).1 h)
  | jp nnn => exact decodeWord_formatA_jp nnn
  | call nnn => exact decodeWord_formatA_call nnn
  | seImm x kk => exact decodeWord_formatXK_seImm x kk
  | sneImm x kk => exact decodeWord_formatXK_sneImm x kk
  | seReg x y n => exact decodeWord_formatXY_seReg x y n
  | ldImm x kk => exact decodeWord_formatXK_ldImm x kk
  | addImm x kk => exact decodeWord_formatXK_addImm x kk
  | mov x y => obtain ⟨hmov, -⟩ := decodeWord_formatXY_copyLogic x y; exact hmov
  | or x y => obtain ⟨-, hor, -⟩ := decodeWord_formatXY_copyLogic x y; exact hor
  | and x y => obtain ⟨-, -, hand, -⟩ := decodeWord_formatXY_copyLogic x y; exact hand
  | xor x y => obtain ⟨-, -, -, hxor⟩ := decodeWord_formatXY_copyLogic x y; exact hxor
  | add x y => obtain ⟨hadd, -⟩ := decodeWord_formatXY_arithmetic x y; exact hadd
  | sub x y => obtain ⟨-, hsub, -⟩ := decodeWord_formatXY_arithmetic x y; exact hsub
  | rsub x y => obtain ⟨-, -, hrsub⟩ := decodeWord_formatXY_arithmetic x y; exact hrsub
  | ror x y => obtain ⟨hror, -⟩ := decodeWord_formatXY_rotates x y; exact hror
  | rol x y => obtain ⟨-, hrol⟩ := decodeWord_formatXY_rotates x y; exact hrol
  | ldI nnn => exact decodeWord_formatA_ldI nnn
  | jpV0 nnn => exact decodeWord_formatA_jpV0 nnn
  | rnd x kk => exact decodeWord_formatXK_rnd x kk
  | drw x y n => exact decodeWord_formatXY_drw x y n
  | skp x => obtain ⟨hskp, -⟩ := decodeWord_formatXK_keySkips x; exact hskp
  | sknp x => obtain ⟨-, hsknp⟩ := decodeWord_formatXK_keySkips x; exact hsknp
  | getTimer x => obtain ⟨hgetTimer, -⟩ := decodeWord_formatXK_timers x; exact hgetTimer
  | setTimer x => obtain ⟨-, hsetTimer, -⟩ := decodeWord_formatXK_timers x; exact hsetTimer
  | setAudio x => obtain ⟨-, -, hsetAudio⟩ := decodeWord_formatXK_timers x; exact hsetAudio
  | waitkey x => exact decodeWord_formatXK_waitkey x
  | addI x => exact decodeWord_formatXK_addI x

/-- Decoding a word's two bytes is decoding the word, and eats exactly those two (R70). -/
theorem decode_bytesOfWord_append (w : Word) (rest : List Byte) :
    decode (bytesOfWord w ++ rest) = (decodeWord w).map fun i => (i, rest) := by
  rw [bytesOfWord, List.cons_append, List.cons_append, List.nil_append, decode, Machine.wordOfBytes_split]

/-! ## Encoding undoes decoding -/

/-- Encoding undoes the decoding of family 0, whose fall-through has none of the reserved fields (R74). -/
theorem encode_decodeControl (w : Word) :
    encode (decodeControl w) = formatA 0x0 (fieldNNN w) ∧ (decodeControl w).wf = true := by
  unfold decodeControl
  split_ifs with hcls hhlt hswap hret
  · rw [hcls]; exact ⟨rfl, rfl⟩
  · rw [hhlt]; exact ⟨rfl, rfl⟩
  · rw [hswap]; exact ⟨rfl, rfl⟩
  · rw [hret]; exact ⟨rfl, rfl⟩
  · exact ⟨rfl, (Instr.wf_nop0_iff _).2 (by simpa [reservedControl] using ⟨hcls, hhlt, hswap, hret⟩)⟩

/-- Encoding undoes the decoding of family 8. -/
theorem encode_of_decodeAlu_eq_ok {w : Word} {i : Instr} (h : decodeAlu w = .ok i) :
    encode i = formatXY 0x8 (fieldX w) (fieldY w) (fieldN w) ∧ i.wf = true := by
  unfold decodeAlu at h
  split at h
  case h_10 => cases h
  all_goals next hop => rw [hop]; cases h; exact ⟨rfl, rfl⟩

/-- Encoding undoes the decoding of family E. -/
theorem encode_of_decodeKey_eq_ok {w : Word} {i : Instr} (h : decodeKey w = .ok i) :
    encode i = formatXK 0xE (fieldX w) (fieldKK w) ∧ i.wf = true := by
  unfold decodeKey at h
  split at h
  case h_3 => cases h
  all_goals next hop => rw [hop]; cases h; exact ⟨rfl, rfl⟩

/-- Encoding undoes the decoding of family F. -/
theorem encode_of_decodeSpecial_eq_ok {w : Word} {i : Instr} (h : decodeSpecial w = .ok i) :
    encode i = formatXK 0xF (fieldX w) (fieldKK w) ∧ i.wf = true := by
  unfold decodeSpecial at h
  split at h
  case h_6 => cases h
  all_goals next hop => rw [hop]; cases h; exact ⟨rfl, rfl⟩

/-- Where a word decodes, its instruction is well formed and encodes to that word: the operands are the word's own fields, in
the format of its family. -/
theorem encode_of_decodeWord_eq_ok {w : Word} {i : Instr} (h : decodeWord w = .ok i) :
    encode i = w ∧ i.wf = true := by
  have hA := formatA_fields w
  have hXK := formatXK_fields w
  have hXY := formatXY_fields w
  unfold decodeWord at h
  split at h
  case h_16 => cases h
  all_goals rename_i hfamily; rw [hfamily] at hA hXK hXY
  case h_1 => cases h; exact (encode_decodeControl w).imp_left (·.trans hA)
  case h_2 | h_3 | h_10 | h_11 => cases h; exact ⟨hA, rfl⟩
  case h_4 | h_5 | h_7 | h_8 | h_12 => cases h; exact ⟨hXK, rfl⟩
  case h_6 | h_13 => cases h; exact ⟨hXY, rfl⟩
  case h_9 => exact (encode_of_decodeAlu_eq_ok h).imp_left (·.trans hXY)
  case h_14 => exact (encode_of_decodeKey_eq_ok h).imp_left (·.trans hXK)
  case h_15 => exact (encode_of_decodeSpecial_eq_ok h).imp_left (·.trans hXK)

/-! ## The opcode table -/

/-- Each instruction's word is of its own row: the laws of the table, instruction by instruction. -/
theorem encode_and_mask (i : Instr) : encode i &&& i.row.mask = i.row.pattern := by
  cases i with
  | cls => exact Laws.TableBits.cls
  | hlt => exact Laws.TableBits.hlt
  | swap => exact Laws.TableBits.swap
  | ret => exact Laws.TableBits.ret
  | nop0 nnn => exact Laws.TableBits.nop0 nnn
  | jp nnn => exact Laws.TableBits.jp nnn
  | call nnn => exact Laws.TableBits.call nnn
  | seImm x kk => exact Laws.TableBits.seImm x kk
  | sneImm x kk => exact Laws.TableBits.sneImm x kk
  | seReg x y n => exact Laws.TableBits.seReg x y n
  | ldImm x kk => exact Laws.TableBits.ldImm x kk
  | addImm x kk => exact Laws.TableBits.addImm x kk
  | mov x y => exact Laws.TableBits.mov x y
  | or x y => exact Laws.TableBits.or x y
  | and x y => exact Laws.TableBits.and x y
  | xor x y => exact Laws.TableBits.xor x y
  | add x y => exact Laws.TableBits.add x y
  | sub x y => exact Laws.TableBits.sub x y
  | ror x y => exact Laws.TableBits.ror x y
  | rsub x y => exact Laws.TableBits.rsub x y
  | rol x y => exact Laws.TableBits.rol x y
  | ldI nnn => exact Laws.TableBits.ldI nnn
  | jpV0 nnn => exact Laws.TableBits.jpV0 nnn
  | rnd x kk => exact Laws.TableBits.rnd x kk
  | drw x y n => exact Laws.TableBits.drw x y n
  | skp x => exact Laws.TableBits.skp x
  | sknp x => exact Laws.TableBits.sknp x
  | getTimer x => exact Laws.TableBits.getTimer x
  | waitkey x => exact Laws.TableBits.waitkey x
  | setTimer x => exact Laws.TableBits.setTimer x
  | setAudio x => exact Laws.TableBits.setAudio x
  | addI x => exact Laws.TableBits.addI x

section
variable {w : Word} (p : Word) {f n : BitVec 4} {kk : Byte}

/-- A word under the mask of its top nibble tells its family. -/
theorem fieldF_of_and_F000 (h : w &&& 0xF000 = p) (hf : fieldF p = f := by decide) : fieldF w = f := by
  rw [← hf, ← h, Laws.TableBits.and_F000, fieldF_formatA]

/-- A format-A word of a row that fixes the family alone. -/
theorem formatA_of_and_F000 (h : w &&& 0xF000 = p) (hf : fieldF p = f := by decide) : formatA f (fieldNNN w) = w := by
  rw [← fieldF_of_and_F000 p h hf, formatA_fields]

/-- A format-XK word of a row that fixes the family alone. -/
theorem formatXK_of_and_F000 (h : w &&& 0xF000 = p) (hf : fieldF p = f := by decide) :
    formatXK f (fieldX w) (fieldKK w) = w := by
  rw [← fieldF_of_and_F000 p h hf, formatXK_fields]

/-- A format-XY word of a row that fixes the family alone. -/
theorem formatXY_of_and_F000 (h : w &&& 0xF000 = p) (hf : fieldF p = f := by decide) :
    formatXY f (fieldX w) (fieldY w) (fieldN w) = w := by
  rw [← fieldF_of_and_F000 p h hf, formatXY_fields]

/-- A format-XY word of a row that fixes the family and the low nibble. -/
theorem formatXY_of_and_F00F (h : w &&& 0xF00F = p) (hf : fieldF p = f := by decide)
    (hn : fieldN p = n := by decide) : formatXY f (fieldX w) (fieldY w) n = w := by
  rw [← hf, ← hn, ← h, Laws.TableBits.and_F00F, fieldF_formatXY, fieldN_formatXY, formatXY_fields]

/-- A format-XS word of a row that fixes the family and the low byte. -/
theorem formatXK_of_and_F0FF (h : w &&& 0xF0FF = p) (hf : fieldF p = f := by decide)
    (hkk : fieldKK p = kk := by decide) : formatXK f (fieldX w) kk = w := by
  rw [← hf, ← hkk, ← h, Laws.TableBits.and_F0FF, fieldF_formatXK, fieldKK_formatXK, formatXK_fields]

/-- A word of a row without free bits is the row's pattern. -/
theorem eq_of_and_FFFF {p : Word} (h : w &&& 0xFFFF = p) : p = w := by
  rw [← h]; exact BitVec.and_allOnes

end

/-- A family-0 word that is none of the four literals has none of the four reserved fields (R74). -/
theorem fieldNNN_notMem_reservedControl {w : Word} (hfamily : formatA 0x0 (fieldNNN w) = w)
    (h : w ∉ [0x00E0, 0x00E1, 0x00E2, 0x00EE]) : fieldNNN w ∉ reservedControl := by
  intro hmem
  have hword : formatA 0x0 (fieldNNN w) ∈ reservedControl.map (formatA 0x0) := List.mem_map_of_mem hmem
  rw [hfamily] at hword
  exact h hword

/-- A word of an instruction's row is the word of a well-formed instruction of that row: the one with the word's own
operand fields. NOP0's row gives way to the four literals. -/
theorem exists_encode_eq_of_and_mask {w : Word} (i : Instr) (h : w &&& i.row.mask = i.row.pattern)
    (hliteral : i.row.mask = 0xF000 → i.row.pattern = 0x0000 → w ∉ [0x00E0, 0x00E1, 0x00E2, 0x00EE]) :
    ∃ j : Instr, j.wf = true ∧ encode j = w ∧ j.row = i.row := by
  cases i with
  | cls => exact ⟨.cls, rfl, eq_of_and_FFFF h, rfl⟩
  | hlt => exact ⟨.hlt, rfl, eq_of_and_FFFF h, rfl⟩
  | swap => exact ⟨.swap, rfl, eq_of_and_FFFF h, rfl⟩
  | ret => exact ⟨.ret, rfl, eq_of_and_FFFF h, rfl⟩
  | nop0 =>
    have hfamily : formatA 0x0 (fieldNNN w) = w := formatA_of_and_F000 0x0000 h
    have hfield := fieldNNN_notMem_reservedControl hfamily (hliteral rfl rfl)
    exact ⟨.nop0 (fieldNNN w), (Instr.wf_nop0_iff _).2 hfield, hfamily, rfl⟩
  | jp => exact ⟨.jp (fieldNNN w), rfl, formatA_of_and_F000 0x1000 h, rfl⟩
  | call => exact ⟨.call (fieldNNN w), rfl, formatA_of_and_F000 0x2000 h, rfl⟩
  | ldI => exact ⟨.ldI (fieldNNN w), rfl, formatA_of_and_F000 0xA000 h, rfl⟩
  | jpV0 => exact ⟨.jpV0 (fieldNNN w), rfl, formatA_of_and_F000 0xB000 h, rfl⟩
  | seImm => exact ⟨.seImm (fieldX w) (fieldKK w), rfl, formatXK_of_and_F000 0x3000 h, rfl⟩
  | sneImm => exact ⟨.sneImm (fieldX w) (fieldKK w), rfl, formatXK_of_and_F000 0x4000 h, rfl⟩
  | ldImm => exact ⟨.ldImm (fieldX w) (fieldKK w), rfl, formatXK_of_and_F000 0x6000 h, rfl⟩
  | addImm => exact ⟨.addImm (fieldX w) (fieldKK w), rfl, formatXK_of_and_F000 0x7000 h, rfl⟩
  | rnd => exact ⟨.rnd (fieldX w) (fieldKK w), rfl, formatXK_of_and_F000 0xC000 h, rfl⟩
  | seReg => exact ⟨.seReg (fieldX w) (fieldY w) (fieldN w).toFin, rfl, formatXY_of_and_F000 0x5000 h, rfl⟩
  | drw => exact ⟨.drw (fieldX w) (fieldY w) (fieldN w).toFin, rfl, formatXY_of_and_F000 0xD000 h, rfl⟩
  | mov => exact ⟨.mov (fieldX w) (fieldY w), rfl, formatXY_of_and_F00F 0x8000 h, rfl⟩
  | or => exact ⟨.or (fieldX w) (fieldY w), rfl, formatXY_of_and_F00F 0x8001 h, rfl⟩
  | and => exact ⟨.and (fieldX w) (fieldY w), rfl, formatXY_of_and_F00F 0x8002 h, rfl⟩
  | xor => exact ⟨.xor (fieldX w) (fieldY w), rfl, formatXY_of_and_F00F 0x8003 h, rfl⟩
  | add => exact ⟨.add (fieldX w) (fieldY w), rfl, formatXY_of_and_F00F 0x8004 h, rfl⟩
  | sub => exact ⟨.sub (fieldX w) (fieldY w), rfl, formatXY_of_and_F00F 0x8005 h, rfl⟩
  | ror => exact ⟨.ror (fieldX w) (fieldY w), rfl, formatXY_of_and_F00F 0x8006 h, rfl⟩
  | rsub => exact ⟨.rsub (fieldX w) (fieldY w), rfl, formatXY_of_and_F00F 0x8007 h, rfl⟩
  | rol => exact ⟨.rol (fieldX w) (fieldY w), rfl, formatXY_of_and_F00F 0x800E h, rfl⟩
  | skp => exact ⟨.skp (fieldX w), rfl, formatXK_of_and_F0FF 0xE09E h, rfl⟩
  | sknp => exact ⟨.sknp (fieldX w), rfl, formatXK_of_and_F0FF 0xE0A1 h, rfl⟩
  | getTimer => exact ⟨.getTimer (fieldX w), rfl, formatXK_of_and_F0FF 0xF007 h, rfl⟩
  | waitkey => exact ⟨.waitkey (fieldX w), rfl, formatXK_of_and_F0FF 0xF00A h, rfl⟩
  | setTimer => exact ⟨.setTimer (fieldX w), rfl, formatXK_of_and_F0FF 0xF015 h, rfl⟩
  | setAudio => exact ⟨.setAudio (fieldX w), rfl, formatXK_of_and_F0FF 0xF018 h, rfl⟩
  | addI => exact ⟨.addI (fieldX w), rfl, formatXK_of_and_F0FF 0xF01E h, rfl⟩

/-! ## The settled statements -/

/-- Settles O12: each instruction's word decodes to it, and its bytes are that word's. -/
theorem decodeOfEncodeIsIdentity : Obligations.DecodeOfEncodeIsIdentity :=
  fun i rest hwf => ⟨decodeWord_encode i hwf, by
    rw [encodeBytes, decode_bytesOfWord_append, decodeWord_encode i hwf]; rfl⟩

/-- Settles O13: the fields a word decodes to are put back where they were. -/
theorem encodeOfDecodeIsIdentity : Obligations.EncodeOfDecodeIsIdentity :=
  fun _ _ => encode_of_decodeWord_eq_ok

/-- Settles O14: a word that decodes is its instruction's word, and so of its row; a word of a row is the word of some
instruction of it, which it decodes to. -/
theorem decodeFollowsTheOpcodeTable : Obligations.DecodeFollowsTheOpcodeTable := by
  refine ⟨fun w i hdecode => ?ofRow, fun w i hrow hliteral => ?decodes⟩
  case ofRow =>
    obtain ⟨rfl, -⟩ := encode_of_decodeWord_eq_ok hdecode
    exact encode_and_mask i
  case decodes =>
    obtain ⟨j, hwf, rfl, hsame⟩ := exists_encode_eq_of_and_mask i hrow hliteral
    exact ⟨j, decodeWord_encode j hwf, hsame⟩

/-- Settles O15: what each family's decoder rejects, put together. -/
theorem decodeRejectsExactlyTheUndefined : Obligations.DecodeRejectsExactlyTheUndefined :=
  decodeWord_eq_error_iff

/-- Settles O16: ten fixed words, decoded. -/
theorem sampleWordsDecode : Obligations.SampleWordsDecode := by
  unfold Obligations.SampleWordsDecode
  decide

end Sys2Proof
end

section
/-! The effect of an instruction: every instruction ends in one of twelve changes of the state, chosen by the operands it
reads. The change is plain data, so that two runs can be compared by their effects; which instruction can have which effect
is said once. The whole-machine rules (spec/10_state.md R21 to R34, spec/20_memory.md R53 and R61) are read off it. -/

namespace Sys2Proof.Machine

/-! ## Effects -/

/-- A change of the state that ends an instruction. -/
inductive Effect where
  /-- The fault status alone (R220). -/
  | raise (f : Fault)
  /-- `pc` alone. -/
  | jump (a : Word)
  /-- One register. -/
  | write (x : Reg) (b : Byte)
  /-- One register, then FlagUpdate (R152). -/
  | arith (x : Reg) (r16 : Word)
  /-- One register, and a random sample is used up (R162). -/
  | sample (x : Reg) (b : Byte)
  /-- The pointer (R26). -/
  | point (v : Word)
  /-- Every work cell becomes 0 (R121). -/
  | clear
  /-- The listed work cells are toggled (R181). -/
  | draw (cells : List Nat)
  /-- The framebuffers exchange roles (R122). -/
  | swap
  /-- The wait slot is set (R202). -/
  | await (x : Reg)
  /-- An entry leaves the stack and `pc` is set (R123). -/
  | ret (a : Word)
  /-- `pc` is pushed and then set (R125). -/
  | call (a : Word)

/-- The state after an effect. -/
def Effect.apply (s : State) : Effect → State
  | .raise f => s.setFault f
  | .jump a => s.setPc a
  | .write x b => (s.setReg x b).advance 2
  | .arith x r16 => s.finishArith x r16
  | .sample x b => (s.rndSampled.setReg x b).advance 2
  | .point v => (s.setI v).advance 2
  | .clear => (s.setWork []).advance 2
  | .draw cells => (s.setWork (toggleCells s.work cells)).advance 2
  | .swap => s.swapRoles.advance 2
  | .await x => (s.advance 2).setWait (some x)
  | .ret a => (s.setSp (s.sp + 2)).setPc a
  | .call a => ((s.setMem (s.mem.writeWord (s.sp.toNat - 1) s.pc)).setSp (s.sp - 2)).setPc a

/-- The effect an operand gives, or the fault of reading it. -/
def Effect.ofExcept {α : Type} (k : α → Effect) : Except Fault α → Effect
  | .ok a => k a
  | .error f => .raise f

/-- Where a skip goes on (R102). -/
def State.skipTarget (s : State) (c : Bool) : Word := if c then s.pc + 4 else s.pc + 2

/-- The effect of an instruction in a state. -/
def State.effect (s : State) : Instr → Effect
  | .cls => .clear
  | .hlt => .jump 0x1000
  | .swap => .swap
  | .ret => .ofExcept (fun vt => .ret (vt.1 + 2)) s.pop
  | .nop0 _ | .getTimer _ | .setTimer _ | .setAudio _ => .jump (s.pc + 2)
  | .jp nnn => .jump (addrOf nnn)
  | .call nnn => .ofExcept (fun _ => .call (addrOf nnn)) (s.push s.pc)
  | .seImm x kk => .jump (s.skipTarget (s.reg x == kk))
  | .sneImm x kk => .jump (s.skipTarget (s.reg x != kk))
  | .seReg x y _ => .jump (s.skipTarget (s.reg x == s.reg y))
  | .ldImm x kk => .write x kk
  | .addImm x kk => .write x (s.reg x + kk)
  | .mov x y => .write x (s.reg y)
  | .or x y => .write x (s.reg x ||| s.reg y)
  | .and x y => .write x (s.reg x &&& s.reg y)
  | .xor x y => .write x (s.reg x ^^^ s.reg y)
  | .add x y => .arith x (zext16 (s.reg x) + zext16 (s.reg y))
  | .sub x y => .arith x (zext16 (s.reg x) - zext16 (s.reg y))
  | .rsub x y => .arith x (zext16 (s.reg y) - zext16 (s.reg x))
  | .ror x _ => .write x ((s.reg x).rotateRight 1)
  | .rol x _ => .write x ((s.reg x).rotateLeft 1)
  | .ldI nnn => .point (addrOf nnn)
  | .addI x => .point (s.I + zext16 (s.reg x))
  | .jpV0 nnn => .jump (zext16 (s.reg 0) + addrOf nnn)
  | .rnd x kk => .sample x (s.rndByte &&& kk)
  | .drw x y n => .ofExcept .draw (s.drawCells x y n)
  | .skp x => .ofExcept (fun b => .jump (s.skipTarget b)) (s.keyPressed x)
  | .sknp x => .ofExcept (fun b => .jump (s.skipTarget (!b))) (s.keyPressed x)
  | .waitkey x => .await x

/-! ## Every instruction ends in its effect -/

/-- A skip sets `pc` to its target. -/
theorem State.skipIf_eq_setPc (s : State) (c : Bool) : s.skipIf c = s.setPc (s.skipTarget c) := by
  cases c <;> rfl

/-- An instruction that may fault ends in the effect of the operand it reads, or in the fault of reading it. -/
theorem State.orRaise_map_eq_apply {α : Type} (s : State) (r : Except Fault α) (g : α → State) (k : α → Effect)
    (h : ∀ a, r = .ok a → g a = (k a).apply s) : s.orRaise (r.map g) = .next ((Effect.ofExcept k r).apply s) := by
  cases r with
  | ok a => exact congrArg Host.Outcome.next (h a rfl)
  | error f => rfl

/-- What a pop gives (R56). -/
theorem State.pop_eq_ok {s : State} {vt : Word × State} (h : s.pop = .ok vt) :
    s.sp ≠ 0x0FFF ∧ 1 ≤ (s.sp + 2).toNat ∧ (s.sp + 2).toNat < 4096 ∧
      vt = (s.mem.readWord ((s.sp + 2).toNat - 1), s.setSp (s.sp + 2)) := by
  obtain ⟨hne, hlo, hhi, hpop⟩ | ⟨-, hpop⟩ := s.pop_cases
  · exact ⟨hne, hlo, hhi, Except.ok.inj (h.symm.trans hpop)⟩
  · cases h.symm.trans hpop

/-- What a push gives (R55). -/
theorem State.push_eq_ok {s t : State} {v : Word} (h : s.push v = .ok t) :
    1 ≤ s.sp.toNat ∧ s.sp.toNat < 4096 ∧ t = (s.setMem (s.mem.writeWord (s.sp.toNat - 1) v)).setSp (s.sp - 2) := by
  obtain ⟨hlo, hhi, hpush⟩ | ⟨-, hpush⟩ := s.push_cases v
  · exact ⟨hlo, hhi, Except.ok.inj (h.symm.trans hpush)⟩
  · cases h.symm.trans hpush

/-- Every instruction in every state answers the next state its effect makes. -/
theorem exec_eq_apply (i : Instr) (s : State) : exec i s = .next ((s.effect i).apply s) := by
  cases i with
  | cls => exact exec_cls s
  | hlt => exact exec_hlt s
  | swap => exact exec_swap s
  | ret =>
    refine s.orRaise_map_eq_apply s.pop _ _ fun vt hvt => ?_
    obtain ⟨-, -, -, rfl⟩ := State.pop_eq_ok hvt
    rfl
  | call nnn =>
    refine s.orRaise_map_eq_apply (s.push s.pc) _ _ fun t ht => ?_
    obtain ⟨-, -, rfl⟩ := State.push_eq_ok ht
    rfl
  | nop0 nnn => exact exec_noOperation s _ (.inl ⟨nnn, rfl⟩)
  | getTimer x => exact exec_noOperation s _ (.inr ⟨x, .inl rfl⟩)
  | setTimer x => exact exec_noOperation s _ (.inr ⟨x, .inr (.inl rfl)⟩)
  | setAudio x => exact exec_noOperation s _ (.inr ⟨x, .inr (.inr rfl)⟩)
  | jp nnn => exact exec_jp nnn s
  | jpV0 nnn => exact exec_jpV0 nnn s
  | seImm x kk => rw [exec_seImm, s.skipIf_eq_setPc]; rfl
  | sneImm x kk => rw [exec_sneImm, s.skipIf_eq_setPc]; rfl
  | seReg x y n => rw [exec_seReg, s.skipIf_eq_setPc]; rfl
  | ldImm x kk => exact exec_ldImm x kk s
  | addImm x kk => exact exec_addImm x kk s
  | mov x y => exact exec_mov x y s
  | or x y => exact exec_or x y s
  | and x y => exact exec_and x y s
  | xor x y => exact exec_xor x y s
  | add x y => exact exec_add x y s
  | sub x y => exact exec_sub x y s
  | rsub x y => exact exec_rsub x y s
  | ror x y => exact exec_ror x y s
  | rol x y => exact exec_rol x y s
  | ldI nnn => exact exec_ldI nnn s
  | addI x => exact exec_addI x s
  | rnd x kk => exact exec_rnd x kk s
  | drw x y n => exact s.orRaise_map_eq_apply (s.drawCells x y n) _ _ fun _ _ => rfl
  | skp x => exact s.orRaise_map_eq_apply (s.keyPressed x) _ _ fun _ _ => s.skipIf_eq_setPc _
  | sknp x => exact s.orRaise_map_eq_apply (s.keyPressed x) _ _ fun _ _ => s.skipIf_eq_setPc _
  | waitkey x => exact exec_waitkey x s

/-! ## Which instruction has which effect -/

/-- The effects an instruction can have in a state: `raise` and `jump` are not tied to one, each of the others is. A jump
goes on from `pc` or to a target below 0x10FF (D21). -/
inductive State.MayHave (s : State) : Instr → Effect → Prop where
  | raise (i : Instr) (f : Fault) : s.MayHave i (.raise f)
  | jump (i : Instr) {a : Word} : a = s.pc + 2 ∨ a = s.pc + 4 ∨ a.toNat ≤ 0x10FE → s.MayHave i (.jump a)
  | write {i : Instr} (x : Reg) (b : Byte) : i.dest = some x → s.MayHave i (.write x b)
  | arith {i : Instr} (x : Reg) (r16 : Word) : i.dest = some x → i.updatesFlags = true → s.MayHave i (.arith x r16)
  | rnd (x : Reg) (kk b : Byte) : s.MayHave (.rnd x kk) (.sample x b)
  | ldI (nnn : Addr) (v : Word) : s.MayHave (.ldI nnn) (.point v)
  | addI (x : Reg) (v : Word) : s.MayHave (.addI x) (.point v)
  | cls : s.MayHave .cls .clear
  | drw {x y : Reg} {n : Fin 16} {cells : List Nat} : s.drawCells x y n = .ok cells →
      s.MayHave (.drw x y n) (.draw cells)
  | swap : s.MayHave .swap .swap
  | waitkey (x : Reg) : s.MayHave (.waitkey x) (.await x)
  | ret : s.sp ≠ 0x0FFF → 1 ≤ (s.sp + 2).toNat → (s.sp + 2).toNat < 4096 →
      s.MayHave .ret (.ret (s.mem.readWord ((s.sp + 2).toNat - 1) + 2))
  | call (nnn : Addr) : 1 ≤ s.sp.toNat → s.sp.toNat < 4096 → s.MayHave (.call nnn) (.call (addrOf nnn))

/-- The effect of reading an operand is that of a value it has, or a fault. -/
theorem State.MayHave.ofExcept {s : State} {i : Instr} {α : Type} {r : Except Fault α} {k : α → Effect}
    (h : ∀ a, r = .ok a → s.MayHave i (k a)) : s.MayHave i (.ofExcept k r) := by
  cases r with
  | ok a => exact h a rfl
  | error f => exact .raise i f

/-- A skip goes on from `pc` (R102). -/
theorem State.MayHave.skip (s : State) (i : Instr) (c : Bool) : s.MayHave i (.jump (s.skipTarget c)) := by
  cases c with
  | false => exact .jump i (.inl rfl)
  | true => exact .jump i (.inr (.inl rfl))

/-- The targets of the two jumps are below 0x10FF (D21). -/
theorem toNat_jump_targets_le (b : Byte) (nnn : Addr) :
    (addrOf nnn).toNat ≤ 0x10FE ∧ (zext16 b + addrOf nnn).toNat ≤ 0x10FE := by
  have hb : b.toNat < 2 ^ 8 := b.isLt
  have hnnn : nnn.toNat < 2 ^ 12 := nnn.isLt
  rw [toNat_zext16_add_addrOf, addrOf_toNat]
  omega

/-- The effect of an instruction is one it may have. -/
theorem State.mayHave_effect (s : State) (i : Instr) : s.MayHave i (s.effect i) := by
  cases i with
  | cls => exact .cls
  | hlt => exact .jump _ (.inr (.inr (by decide)))
  | swap => exact .swap
  | ret =>
    refine .ofExcept fun vt hvt => ?_
    obtain ⟨hne, hlo, hhi, rfl⟩ := State.pop_eq_ok hvt
    exact .ret hne hlo hhi
  | call nnn =>
    refine .ofExcept fun t ht => ?_
    obtain ⟨hlo, hhi, -⟩ := State.push_eq_ok ht
    exact .call nnn hlo hhi
  | nop0 | getTimer | setTimer | setAudio => exact .jump _ (.inl rfl)
  | jp nnn => exact .jump _ (.inr (.inr (toNat_jump_targets_le 0 nnn).1))
  | jpV0 nnn => exact .jump _ (.inr (.inr (toNat_jump_targets_le (s.reg 0) nnn).2))
  | seImm | sneImm | seReg => exact .skip s _ _
  | skp | sknp => exact .ofExcept fun b _ => .skip s _ _
  | ldImm | addImm | mov | or | and | xor | ror | rol => exact .write _ _ rfl
  | add | sub | rsub => exact .arith _ _ rfl rfl
  | ldI nnn => exact .ldI nnn _
  | addI x => exact .addI x _
  | rnd x kk => exact .rnd x kk _
  | drw x y n => exact .ofExcept fun _ => .drw
  | waitkey x => exact .waitkey x

/-- Where an instruction answers `t`, `t` is `s` after an effect the instruction may have. -/
theorem exists_effect_of_exec {i : Instr} {s t : State} (h : exec i s = .next t) :
    ∃ e : Effect, s.MayHave i e ∧ t = e.apply s :=
  ⟨s.effect i, s.mayHave_effect i, (Host.Outcome.next.inj ((exec_eq_apply i s).symm.trans h)).symm⟩

/-! ## What each effect leaves alone -/

section
variable {s : State} {i : Instr} {e : Effect}

/-- A register changes by the effects that name it, or V15 by a flag update (R21, R23). -/
theorem State.MayHave.apply_reg (h : s.MayHave i e) (r : Reg) :
    (e.apply s).reg r = s.reg r ∨ i.dest = some r ∨ (r = flagReg ∧ i.updatesFlags = true) := by
  have hwrite {u : State} {x : Reg} {b : Byte} (hu : u.reg r = s.reg r) (hx : i.dest = some x) :
      (u.setReg x b).reg r = s.reg r ∨ i.dest = some r ∨ (r = flagReg ∧ i.updatesFlags = true) := by
    by_cases hr : r = x
    · exact .inr (.inl (hr ▸ hx))
    · exact .inl ((u.setReg_reg_ne x r b hr).trans hu)
  cases h with
  | write x b hx => exact hwrite rfl hx
  | rnd x kk b => exact hwrite (s.rndSampled_reg r) rfl
  | arith x r16 hx hflags =>
    by_cases hr : r = flagReg
    · exact .inr (.inr ⟨hr, hflags⟩)
    · exact (hwrite rfl hx).imp_left (State.setReg_reg_ne _ flagReg r _ hr).trans
  | cls => exact .inl (s.setWork_reg [] r)
  | drw => exact .inl (s.setWork_reg _ r)
  | raise | jump | ldI | addI | swap | waitkey | ret | call => exact .inl rfl

/-- Only SWAP's effect changes the role bit (R32). -/
theorem State.MayHave.apply_fbSel (h : s.MayHave i e) : (e.apply s).fbSel = s.fbSel ∨ i = .swap := by
  cases h with
  | swap => exact .inr rfl
  | _ => exact .inl (by simp [Effect.apply, State.finishArith_eq])

/-- Only the effects of CLS and DRW write cells, those of the work buffer (R32). -/
theorem State.MayHave.apply_fb (h : s.MayHave i e) (b : Fin 2) :
    (e.apply s).fb b = s.fb b ∨ (b = s.fbSel ∧ (i = .cls ∨ ∃ x y n, i = .drw x y n)) := by
  cases h with
  | cls => exact (Decidable.em (b = s.fbSel)).symm.imp (s.setWork_fb_ne [] b) fun hb => ⟨hb, .inl rfl⟩
  | @drw x y n =>
    exact (Decidable.em (b = s.fbSel)).symm.imp (s.setWork_fb_ne _ b) fun hb => ⟨hb, .inr ⟨x, y, n, rfl⟩⟩
  | rnd => exact .inl (s.rndSampled_fb b)
  | raise | jump | write | arith | ldI | addI | swap | waitkey | ret | call => exact .inl rfl

/-- Only CALL's effect writes memory, and only where its push has room (R53, R55). -/
theorem State.MayHave.apply_mem (h : s.MayHave i e) :
    (e.apply s).mem = s.mem ∨
      ∃ nnn, i = .call nnn ∧ e = .call (addrOf nnn) ∧ 1 ≤ s.sp.toNat ∧ s.sp.toNat < 4096 := by
  cases h with
  | call nnn hlo hhi => exact .inr ⟨nnn, rfl, rfl, hlo, hhi⟩
  | _ => exact .inl (by simp [Effect.apply, State.finishArith_eq])

/-- Only the effects of LD_I and ADD_I write the pointer (R26). -/
theorem State.MayHave.apply_I (h : s.MayHave i e) :
    (e.apply s).I = s.I ∨ (∃ nnn, i = .ldI nnn) ∨ ∃ x, i = .addI x := by
  cases h with
  | ldI nnn => exact .inr (.inl ⟨nnn, rfl⟩)
  | addI x => exact .inr (.inr ⟨x, rfl⟩)
  | _ => exact .inl (by simp [Effect.apply, State.finishArith_eq])

/-- Only the effects of RET and CALL move the stack pointer (R27). -/
theorem State.MayHave.apply_sp (h : s.MayHave i e) :
    (e.apply s).sp = s.sp ∨ i = .ret ∨ ∃ nnn, i = .call nnn := by
  cases h with
  | ret => exact .inr (.inl rfl)
  | call nnn => exact .inr (.inr ⟨nnn, rfl⟩)
  | _ => exact .inl (by simp [Effect.apply, State.finishArith_eq])

/-- Only WAITKEY's effect writes the wait slot (R30). -/
theorem State.MayHave.apply_wait (h : s.MayHave i e) : (e.apply s).wait = s.wait ∨ ∃ x, i = .waitkey x := by
  cases h with
  | waitkey x => exact .inr ⟨x, rfl⟩
  | _ => exact .inl (by simp [Effect.apply, State.finishArith_eq])

/-- Only RND's effect touches the random supply (log entry 3). -/
theorem State.MayHave.apply_sameRandom (h : s.MayHave i e) : s.sameRandom (e.apply s) ∨ ∃ x kk, i = .rnd x kk := by
  cases h with
  | rnd x kk => exact .inr ⟨x, kk, rfl⟩
  | _ => exact .inl (by simp [State.sameRandom, Effect.apply, State.finishArith_eq])

end

/-- No effect writes a key or a parameter (R29, log entry 1). -/
theorem Effect.apply_keys_params (e : Effect) (s : State) :
    (e.apply s).keys = s.keys ∧ (e.apply s).params = s.params := by
  cases e <;> simp [Effect.apply, State.finishArith_eq]

/-- Every step answers a next state, whichever case of the cycle it is. -/
theorem exists_step_eq_next (s : State) : ∃ t, step s = .next t := by
  obtain ⟨-, hstep⟩ | ⟨-, -, hstep⟩ | ⟨-, -, ⟨i, -, hstep⟩ | ⟨e, -, hstep⟩⟩ := step_cases s
  · exact ⟨_, hstep⟩
  · exact ⟨_, hstep⟩
  · exact ⟨_, hstep.trans (exec_eq_apply i s)⟩
  · obtain ⟨-, hundef⟩ | ⟨-, hundef⟩ := execUndefined_cases s <;> exact ⟨_, hstep.trans hundef⟩

/-! ## The settled statements -/

/-- Settles O6: an instruction ends in its effect, and each case of a step is a next state. -/
theorem everyStepAnswersNext : Obligations.EveryStepAnswersNext :=
  ⟨fun i s => ⟨_, exec_eq_apply i s⟩, exists_step_eq_next⟩

/-- Settles O52: read off the effects. -/
theorem registersChangeOnlyAsDestinations : Obligations.RegistersChangeOnlyAsDestinations := by
  intro i s t r hexec hchanged
  obtain ⟨e, he, rfl⟩ := exists_effect_of_exec hexec
  exact (he.apply_reg r).resolve_left hchanged

/-- Settles O53: read off the effects; the front buffer is the one that is not work. -/
theorem displayHasThreeWriters : Obligations.DisplayHasThreeWriters := by
  intro i s t hexec
  obtain ⟨e, he, rfl⟩ := exists_effect_of_exec hexec
  have hother (b : Fin 2) (hb : b ≠ s.fbSel) : (e.apply s).fb b = s.fb b :=
    (he.apply_fb b).resolve_right fun ⟨hwork, _⟩ => hb hwork
  refine ⟨fun hswap => ?roles, fun hcls hdrw b c => ?cells, fun b c hb => by rw [hother b hb]⟩
  case roles =>
    have hsel : (e.apply s).fbSel = s.fbSel := he.apply_fbSel.resolve_right hswap
    refine ⟨hsel, fun c => ?_⟩
    rw [State.front, hsel, hother _ (State.one_sub_ne s.fbSel), State.front]
  case cells =>
    obtain hkept | ⟨-, hi | ⟨x, y, n, hi⟩⟩ := he.apply_fb b
    · rw [hkept]
    · exact absurd hi hcls
    · exact absurd hi (hdrw x y n)

/-- Settles O54: read off the effects. -/
theorem onlyCallWritesMemory : Obligations.OnlyCallWritesMemory := by
  intro i s t hexec hcall a
  obtain ⟨e, he, rfl⟩ := exists_effect_of_exec hexec
  rw [he.apply_mem.resolve_right fun ⟨nnn, hi, _⟩ => hcall nnn hi]

/-- Settles O55: read off the effects, one part of the state at a time. -/
theorem controlRegistersHaveTheirWriters : Obligations.ControlRegistersHaveTheirWriters := by
  intro i s t hexec
  obtain ⟨e, he, rfl⟩ := exists_effect_of_exec hexec
  obtain ⟨hkeys, -⟩ := e.apply_keys_params s
  exact ⟨he.apply_I.resolve_left, he.apply_sp.resolve_left, he.apply_wait.resolve_left, hkeys⟩

end Sys2Proof.Machine
end

section
/-! Two runs compared (spec/10_state.md R24, R34): an instruction's effect depends on the registers it reads and not on the
display, and one effect on two states that differ in some registers or in the display keeps them that close. -/

namespace Sys2Proof.Machine

/-! ## What an effect depends on -/

/-- Two states that agree on all an instruction can look at: the registers it reads and everything that is neither a register
nor the display. -/
structure State.AgreeFor (s s' : State) (i : Instr) : Prop where
  regs : ∀ r ∈ i.reads, s'.reg r = s.reg r
  pc : s'.pc = s.pc
  I : s'.I = s.I
  sp : s'.sp = s.sp
  mem : s'.mem = s.mem
  keys : s'.keys = s.keys
  params : s'.params = s.params
  rndPending : s'.rndPending = s.rndPending
  rndCount : s'.rndCount = s.rndCount

/-- The effect of RET by its two checks (R56). -/
theorem State.effect_ret (s : State) :
    s.effect .ret = if s.sp = 0x0FFF then .raise .stackUnderflow
      else if entryInMemory (s.sp + 2) then .ret (s.mem.readWord ((s.sp + 2).toNat - 1) + 2)
      else .raise .stackUnderflow := by
  unfold State.effect State.pop
  split_ifs <;> rfl

/-- The effect of CALL by its check (R55). -/
theorem State.effect_call (s : State) (nnn : Addr) :
    s.effect (.call nnn) = if entryInMemory s.sp then .call (addrOf nnn) else .raise .stackOverflow := by
  unfold State.effect State.push
  split_ifs <;> rfl

/-- A key query depends on Vx and the keys alone (R200). -/
theorem State.keyPressed_congr {s s' : State} {x : Reg} (hx : s'.reg x = s.reg x) (hkeys : s'.keys = s.keys) :
    s'.keyPressed x = s.keyPressed x := by
  simp only [State.keyPressed, hx, hkeys]

/-- The set `T` of a DRW depends on Vx, Vy, the pointer, memory and the parameters alone (R181). -/
theorem State.drawCells_congr {s s' : State} {x y : Reg} (n : Fin 16) (hx : s'.reg x = s.reg x)
    (hy : s'.reg y = s.reg y) (hI : s'.I = s.I) (hmem : s'.mem = s.mem) (hparams : s'.params = s.params) :
    s'.drawCells x y n = s.drawCells x y n := by
  have hin : s'.spriteInMemory n = s.spriteInMemory n := by rw [State.spriteInMemory, hI, State.spriteInMemory]
  have hrows : s'.spriteRows n = s.spriteRows n := by rw [State.spriteRows, hI, hmem, State.spriteRows]
  simp only [State.drawCells, hin, hrows, hx, hy, hparams]

/-- A supplied byte is sampled first, and is then gone (log entry 3). -/
theorem State.rndSampled_of_cons {s : State} {b : Byte} {rest : List Byte} (h : s.rndPending = b :: rest) :
    s.rndSampled.rndPending = rest ∧ s.rndSampled.rndCount = s.rndCount := by
  simp [State.rndSampled, h]

/-- With no byte supplied the free source's counter advances (log entry 3). -/
theorem State.rndSampled_of_nil {s : State} (h : s.rndPending = []) :
    s.rndSampled.rndPending = [] ∧ s.rndSampled.rndCount = s.rndCount + 1 := by
  simp [State.rndSampled, h]

/-- The byte a RND samples depends on the random supply alone (log entry 3). -/
theorem State.rndByte_congr {s s' : State} (hpending : s'.rndPending = s.rndPending) (hcount : s'.rndCount = s.rndCount) :
    s'.rndByte = s.rndByte := by
  simp only [State.rndByte, hpending, hcount]

/-- States that agree on all an instruction can look at give it one effect. -/
theorem State.AgreeFor.effect_eq {s s' : State} {i : Instr} (h : s.AgreeFor s' i) : s'.effect i = s.effect i := by
  obtain ⟨hregs, hpc, hI, hsp, hmem, hkeys, hparams, hpending, hcount⟩ := h
  cases i with
  | ret => simp only [State.effect_ret, hsp, hmem]
  | call nnn => simp only [State.effect_call, hsp]
  | cls | hlt | swap | jp | ldImm | ldI | waitkey => rfl
  | nop0 | getTimer | setTimer | setAudio => simp only [State.effect, hpc]
  | seImm x | sneImm x => simp only [State.effect, State.skipTarget, hpc, hregs x (.head _)]
  | seReg x y =>
    simp only [State.effect, State.skipTarget, hpc, hregs x (.head _), hregs y (.tail _ (.head _))]
  | addImm x | ror x | rol x => simp only [State.effect, hregs x (.head _)]
  | mov x y => simp only [State.effect, hregs y (.head _)]
  | or x y | and x y | xor x y | add x y | sub x y | rsub x y =>
    simp only [State.effect, hregs x (.head _), hregs y (.tail _ (.head _))]
  | addI x => simp only [State.effect, hI, hregs x (.head _)]
  | jpV0 nnn => simp only [State.effect, hregs 0 (.head _)]
  | rnd x kk => simp only [State.effect, State.rndByte_congr hpending hcount]
  | drw x y n =>
    simp only [State.effect,
      State.drawCells_congr n (hregs x (.head _)) (hregs y (.tail _ (.head _))) hI hmem hparams]
  | skp x | sknp x =>
    simp only [State.effect, State.skipTarget, hpc, State.keyPressed_congr (hregs x (.head _)) hkeys]

/-! ## One effect on two states -/

section
variable {s s' : State} {xs : List Reg}

/-- Writing one byte to one register keeps two register files as close as they were. -/
theorem State.sameRegsBut.setReg (h : s.sameRegsBut s' xs) (x : Reg) {b b' : Byte} (hb : x ∉ xs → b' = b) :
    (s.setReg x b).sameRegsBut (s'.setReg x b') xs := by
  intro r hr
  rw [State.setReg_reg, State.setReg_reg]
  split
  case isTrue heq => exact hb (heq ▸ hr)
  case isFalse => exact h r hr

/-- FlagUpdate reads V15 and the parameters: where they agree it writes the same flags. -/
theorem State.sameRegsBut.finishArith (h : s.sameRegsBut s' xs) (hparams : s'.params = s.params) (x : Reg) (r16 : Word) :
    (s.finishArith x r16).sameRegsBut (s'.finishArith x r16) xs := by
  have hdest : (s.setReg x (r16.extractLsb' 0 8)).sameRegsBut (s'.setReg x (r16.extractLsb' 0 8)) xs :=
    h.setReg x fun _ => rfl
  rw [State.finishArith_eq, State.finishArith_eq]
  exact hdest.setReg flagReg fun hflag => by rw [hparams, hdest flagReg hflag]

/-- Sampling uses up the same byte of the same supply. -/
theorem State.sameRandom.rndSampled (h : s.sameRandom s') : s.rndSampled.sameRandom s'.rndSampled := by
  obtain ⟨hpending, hcount⟩ := h
  cases hs : s.rndPending with
  | nil =>
    obtain ⟨hrest, hdrawn⟩ := State.rndSampled_of_nil hs
    obtain ⟨hrest', hdrawn'⟩ := State.rndSampled_of_nil (hpending.trans hs)
    exact ⟨hrest'.trans hrest.symm, by rw [hdrawn', hcount, hdrawn]⟩
  | cons b rest =>
    obtain ⟨hrest, hdrawn⟩ := State.rndSampled_of_cons hs
    obtain ⟨hrest', hdrawn'⟩ := State.rndSampled_of_cons (hpending.trans hs)
    exact ⟨hrest'.trans hrest.symm, by rw [hdrawn', hcount, hdrawn]⟩

/-- Writing one byte to one register keeps all but the display as close as it was. -/
theorem State.sameButDisplay.setReg (h : s.sameButDisplay s' xs) (x : Reg) (b : Byte) :
    (s.setReg x b).sameButDisplay (s'.setReg x b) xs := by
  obtain ⟨hregs, hrest⟩ := h
  exact ⟨hregs.setReg x fun _ => rfl, hrest⟩

/-- Sampling keeps all but the display as close as it was. -/
theorem State.sameButDisplay.rndSampled (h : s.sameButDisplay s' xs) :
    s.rndSampled.sameButDisplay s'.rndSampled xs := by
  obtain ⟨hregs, hI, hsp, hmem, hstatus, hrandom⟩ := h
  refine ⟨fun r hr => ?_, ?_, ?_, fun a => ?_, ?_, hrandom.rndSampled⟩
  · simpa using hregs r hr
  · simpa using hI
  · simpa using hsp
  · simpa using hmem a
  · simpa [State.sameStatus] using hstatus

/-- Replacing the work buffers keeps all but the display as close as it was. -/
theorem State.sameButDisplay.setWork (h : s.sameButDisplay s' xs) (m m' : Memory) :
    (s.setWork m).sameButDisplay (s'.setWork m') xs := by
  simpa [State.sameButDisplay, State.sameRegsBut, State.sameMemory, State.sameStatus, State.sameRandom] using h

/-- One effect on two states at the same `pc` leaves them at the same `pc`, and differing in no more than they did. -/
theorem Effect.apply_sameButDisplay (e : Effect) (hpc : s'.pc = s.pc) (h : s.sameButDisplay s' xs) :
    (e.apply s').pc = (e.apply s).pc ∧ (e.apply s).sameButDisplay (e.apply s') xs := by
  have hnext : s'.pc + 2 = s.pc + 2 := by rw [hpc]
  have hwork (m m' : Memory) : (s'.setWork m').pc + 2 = (s.setWork m).pc + 2 := by
    rw [State.setWork_pc, State.setWork_pc, hpc]
  obtain ⟨hregs, hI, hsp, hmem, hstatus, hrandom⟩ := id h
  obtain ⟨hkeys, hwait, hfault, hparams⟩ := id hstatus
  cases e with
  | raise f => exact ⟨hpc, hregs, hI, hsp, hmem, ⟨hkeys, hwait, rfl, hparams⟩, hrandom⟩
  | jump a => exact ⟨rfl, h⟩
  | write x b => exact ⟨hnext, hregs.setReg x fun _ => rfl, hI, hsp, hmem, hstatus, hrandom⟩
  | arith x r16 => exact ⟨hnext, hregs.finishArith hparams x r16, hI, hsp, hmem, hstatus, hrandom⟩
  | sample x b => exact ⟨by simpa [Effect.apply] using hnext, h.rndSampled.setReg x b⟩
  | point v => exact ⟨hnext, hregs, rfl, hsp, hmem, hstatus, hrandom⟩
  | clear => exact ⟨hwork [] [], h.setWork [] []⟩
  | draw cells => exact ⟨hwork _ _, h.setWork _ _⟩
  | swap => exact ⟨hnext, h⟩
  | await x => exact ⟨hnext, hregs, hI, hsp, hmem, ⟨hkeys, rfl, hfault, hparams⟩, hrandom⟩
  | ret a => exact ⟨rfl, hregs, hI, congrArg (· + 2) hsp, hmem, hstatus, hrandom⟩
  | call a =>
    refine ⟨rfl, hregs, hI, congrArg (· - 2) hsp, fun c => ?_, hstatus, hrandom⟩
    simp only [Effect.apply, State.setPc_mem, State.setSp_mem, State.setMem_mem, Memory.read_writeWord, hsp, hpc, hmem c]

end

/-- A register and the work buffer are written independently. -/
theorem State.setWork_setReg (s : State) (x : Reg) (b : Byte) (m : Memory) :
    (s.setReg x b).setWork m = (s.setWork m).setReg x b := by
  unfold State.setWork
  rw [State.setReg_fbSel]
  split <;> rfl

/-- An effect makes the same change to the display whatever a register holds. -/
theorem Effect.sameDisplay_apply_setReg (e : Effect) (s : State) (x : Reg) (b : Byte) :
    (e.apply s).sameDisplay (e.apply (s.setReg x b)) := by
  cases e with
  | clear => rw [Effect.apply, Effect.apply, State.setWork_setReg]; exact ⟨rfl, fun _ _ => rfl⟩
  | draw cells => rw [Effect.apply, Effect.apply, State.setWork_setReg]; exact ⟨rfl, fun _ _ => rfl⟩
  | sample => simp [State.sameDisplay, Effect.apply]
  | raise | jump | write | arith | point | swap | await | ret | call => exact ⟨rfl, fun _ _ => rfl⟩

/-- Differing in some registers at most is the same either way about. -/
theorem State.onlyRegs.symm {s t : State} {xs : List Reg} (h : s.onlyRegs t xs) : t.onlyRegs s xs := by
  obtain ⟨⟨hregs, hI, hsp, hmem, ⟨hkeys, hwait, hfault, hparams⟩, hpending, hcount⟩, hsel, hfb⟩ := h
  exact ⟨⟨fun r hr => (hregs r hr).symm, hI.symm, hsp.symm, fun a => (hmem a).symm,
    ⟨hkeys.symm, hwait.symm, hfault.symm, hparams.symm⟩, hpending.symm, hcount.symm⟩, hsel.symm,
    fun b c => (hfb b c).symm⟩

/-! ## The settled statements -/

/-- Settles O57: with V15 not among the registers read the effect is the same, and one effect spreads no difference. -/
theorem flagsAreNeverReadImplicitly : Obligations.FlagsAreNeverReadImplicitly := by
  intro i s t t' v hreads ht ht'
  have hagree : s.AgreeFor (s.setReg flagReg v) i :=
    ⟨fun r hr => s.setReg_reg_ne flagReg r v fun heq => hreads (heq ▸ hr), rfl, rfl, rfl, rfl, rfl, rfl, rfl, rfl⟩
  rw [exec_eq_apply] at ht ht'
  rw [hagree.effect_eq] at ht'
  cases ht
  cases ht'
  obtain ⟨hframe, -⟩ := s.onlyRegs_setReg flagReg v
  obtain ⟨hpc, hrest⟩ := (s.effect i).apply_sameButDisplay (s.setReg_pc flagReg v) hframe
  exact ⟨hpc, State.onlyRegs.symm ⟨hrest, (s.effect i).sameDisplay_apply_setReg s flagReg v⟩⟩

/-- Settles O58: with the display alone changed the effect is the same, and one effect spreads no difference. -/
theorem displayNeverReachesTheProgram : Obligations.DisplayNeverReachesTheProgram := by
  intro i s t t' m0 m1 b ht ht'
  have hagree : s.AgreeFor { s with fb0 := m0, fb1 := m1, fbSel := b } i :=
    ⟨fun _ _ => rfl, rfl, rfl, rfl, rfl, rfl, rfl, rfl, rfl⟩
  rw [exec_eq_apply] at ht ht'
  rw [hagree.effect_eq] at ht'
  cases ht
  cases ht'
  exact (s.effect i).apply_sameButDisplay rfl
    ⟨fun _ _ => rfl, rfl, rfl, fun _ => rfl, ⟨rfl, rfl, rfl, rfl⟩, rfl, rfl⟩

end Sys2Proof.Machine
end

section
/-! The machine's invariant (spec/10_state.md, spec/20_memory.md R55, spec/41_control.md R123): each operation on the state
keeps it, so each effect, each step and each host transaction does. -/

namespace Sys2Proof.Machine

/-! ## The stack, counted in entries -/

/-- The depth by the value of `sp` (R27). -/
theorem State.depth_eq (s : State) : s.depth = (0x10FFF - s.sp.toNat) % 65536 / 2 := by
  unfold State.depth
  bv_omega

section
variable {s : State}

/-- `sp` lies two bytes lower per entry, and at 2048 entries it is 0xFFFF (R27, R55). -/
theorem State.Inv.sp_toNat (h : s.Inv) : s.depth ≤ 2048 ∧ s.sp.toNat = (0x10FFF - 2 * s.depth) % 65536 := by
  have hdepth := s.depth_eq
  obtain hfull | ⟨hodd, hlt⟩ := h.spOnEntry
  · have hsp : s.sp.toNat = 0xFFFF := by rw [hfull]; rfl
    omega
  · have hin : s.sp.toNat < 4096 := hlt
    omega

/-- A push adds an entry, at the address of the new top (R55). -/
theorem State.Inv.depth_push (h : s.Inv) (hlo : 1 ≤ s.sp.toNat) (hhi : s.sp.toNat < 4096) {t : State}
    (ht : t.sp = s.sp - 2) : t.depth = s.depth + 1 ∧ s.sp.toNat - 1 = 0x1000 - 2 * (s.depth + 1) := by
  obtain ⟨hle, hsp⟩ := h.sp_toNat
  have htop : t.sp.toNat = (s.sp.toNat + 65534) % 65536 := by rw [ht]; bv_omega
  rw [t.depth_eq, htop]
  omega

/-- A pop takes the top entry away, from its address (R56). -/
theorem State.Inv.depth_pop (h : s.Inv) (hne : s.sp ≠ 0x0FFF) {t : State} (ht : t.sp = s.sp + 2) :
    t.depth + 1 = s.depth ∧ (s.sp + 2).toNat - 1 = 0x1000 - 2 * s.depth := by
  obtain ⟨hle, hsp⟩ := h.sp_toNat
  have hdeep : s.sp.toNat ≠ 0x0FFF := fun heq => hne (BitVec.eq_of_toNat_eq heq)
  have htop : (s.sp + 2).toNat = (s.sp.toNat + 2) % 65536 := by bv_omega
  rw [t.depth_eq, ht, htop]
  omega

/-- A push leaves the entries below the new top as they were, and the new top is what was pushed (R55). -/
theorem State.Inv.entry_push (h : s.Inv) (hlo : 1 ≤ s.sp.toNat) (hhi : s.sp.toNat < 4096) {t : State} {v : Word}
    (ht : t.sp = s.sp - 2) (hmem : t.mem = s.mem.writeWord (s.sp.toNat - 1) v) :
    t.entry (s.depth + 1) = v ∧ ∀ k, k ≤ s.depth → t.entry k = s.entry k := by
  obtain ⟨hle, hsp⟩ := h.sp_toNat
  obtain ⟨-, haddr⟩ := h.depth_push hlo hhi ht
  constructor
  · rw [State.entry, hmem, haddr, Memory.readWord_writeWord_same]
  · intro k hk
    have habove : s.sp.toNat - 1 + 2 ≤ 0x1000 - 2 * k := by omega
    rw [State.entry, hmem, Memory.readWord_writeWord_disjoint _ _ _ _ (.inr habove), State.entry]

/-! ## What each operation keeps -/

theorem State.Inv.setPc (h : s.Inv) {a : Word} (ha : a.toNat ≤ 0x10FE) : (s.setPc a).Inv :=
  { h with pcReachable := ha }

theorem State.Inv.setReg (h : s.Inv) (x : Reg) (b : Byte) : (s.setReg x b).Inv := { h with }

theorem State.Inv.setI (h : s.Inv) (v : Word) : (s.setI v).Inv :=
  { h with pointerMasked := by rw [s.setI_I_toNat]; exact Nat.mod_lt _ (by decide) }

/-- A fault comes in where the machine is not blocked (R205). -/
theorem State.Inv.setFault (h : s.Inv) (hwait : s.wait = none) (f : Fault) : (s.setFault f).Inv :=
  { h with notBlockedAndFaulted := .inl hwait }

/-- The machine comes to wait where it is not faulted (R205). -/
theorem State.Inv.setWait (h : s.Inv) (hfault : s.fault = none) (w : Option Reg) : (s.setWait w).Inv :=
  { h with notBlockedAndFaulted := .inr hfault }

theorem State.Inv.swapRoles (h : s.Inv) : s.swapRoles.Inv := { h with }

theorem State.Inv.setKeyBit (h : s.Inv) (k : Fin 16) (b : Bool) : (s.setKeyBit k b).Inv := { h with }

theorem State.Inv.supplyRnd (h : s.Inv) (b : Byte) : (s.supplyRnd b).Inv := { h with }

theorem State.Inv.rndSampled (h : s.Inv) : s.rndSampled.Inv := by
  unfold State.rndSampled
  split <;> exact { h with }

/-- What holds of the new cells and of both buffers holds of both buffers with the new cells in. -/
theorem State.forall_fb_setWork {P : Memory → Prop} {m : Memory} (hm : P m) (hfb : ∀ b, P (s.fb b)) (b : Fin 2) :
    P ((s.setWork m).fb b) := by
  rw [State.setWork_fb]
  split
  case isTrue => exact hm
  case isFalse => exact hfb b

/-- New work cells must be canonical, on the framebuffer and 0 or 1. -/
theorem State.Inv.setWork (h : s.Inv) {m : Memory} (hwf : m.wf) (hin : m.within Config.fbCells)
    (hpixels : ∀ c, m.read c = 0 ∨ m.read c = 1) : (s.setWork m).Inv where
  memCanonical := by rw [State.setWork_mem]; exact h.memCanonical
  memInRange := by rw [State.setWork_mem]; exact h.memInRange
  fbCanonical := State.forall_fb_setWork hwf h.fbCanonical
  fbInRange := State.forall_fb_setWork hin h.fbInRange
  fbPixels := State.forall_fb_setWork (P := fun m => ∀ c, m.read c = 0 ∨ m.read c = 1) hpixels h.fbPixels
  pointerMasked := by rw [State.setWork_I]; exact h.pointerMasked
  spOnEntry := by rw [State.setWork_sp]; exact h.spOnEntry
  pcReachable := by rw [State.setWork_pc]; exact h.pcReachable
  entriesAreCalls := by simpa only [State.depth, State.entry, State.setWork_sp, State.setWork_mem] using h.entriesAreCalls
  notBlockedAndFaulted := by rw [State.setWork_wait, State.setWork_fault]; exact h.notBlockedAndFaulted
  flagBitsDistinct := by rw [State.setWork_params]; exact h.flagBitsDistinct

/-- A cleared buffer is a good one (R121). -/
theorem State.Inv.setWork_nil (h : s.Inv) : (s.setWork []).Inv :=
  h.setWork ⟨.nil, by simp⟩ (by simp) fun _ => .inl rfl

/-- Toggling cells of the framebuffer leaves it a good one (R181, D26). -/
theorem State.Inv.setWork_toggleCells (h : s.Inv) {cells : List Nat} (hcells : ∀ c ∈ cells, c < Config.fbCells) :
    (s.setWork (toggleCells s.work cells)).Inv :=
  h.setWork (toggleCells_wf cells _ (h.fbCanonical _)) (toggleCells_within _ cells hcells _ (h.fbInRange _))
    (toggleCells_pixels cells _ (h.fbPixels _))

/-- The entries that a pop leaves are those that were below the top (R56). -/
theorem State.Inv.pop (h : s.Inv) (hne : s.sp ≠ 0x0FFF) (hhi : (s.sp + 2).toNat < 4096) :
    (s.setSp (s.sp + 2)).Inv := by
  obtain ⟨hdepth, -⟩ := h.depth_pop hne (s.setSp_sp (s.sp + 2))
  obtain ⟨hle, hsp⟩ := h.sp_toNat
  refine { h with
    spOnEntry := .inr ⟨?_, hhi⟩
    entriesAreCalls := fun k hk hle => h.entriesAreCalls k hk (by omega) }
  have htop : (s.sp + 2).toNat = (s.sp.toNat + 2) % 65536 := by bv_omega
  rw [State.setSp_sp]
  omega

/-- The entry that a push adds is the address of the fetched CALL (R125). -/
theorem State.Inv.push (h : s.Inv) (hlo : 1 ≤ s.sp.toNat) (hhi : s.sp.toNat < 4096) (hpc : s.pc.toNat < 0x0FFF) :
    ((s.setMem (s.mem.writeWord (s.sp.toNat - 1) s.pc)).setSp (s.sp - 2)).Inv := by
  obtain ⟨hdepth, -⟩ := h.depth_push hlo hhi (s.setSp_sp (s.sp - 2))
  obtain ⟨htop, hbelow⟩ := h.entry_push hlo hhi
    (t := (s.setMem (s.mem.writeWord (s.sp.toNat - 1) s.pc)).setSp (s.sp - 2)) rfl rfl
  obtain ⟨hle, hsp⟩ := h.sp_toNat
  have hnext : (s.sp - 2).toNat = (s.sp.toNat + 65534) % 65536 := by bv_omega
  refine { h with
    memCanonical := Memory.writeWord_wf _ _ _ h.memCanonical
    memInRange := Memory.writeWord_within _ _ _ _ (by rw [Config.memSize]; omega) h.memInRange
    spOnEntry := ?_
    entriesAreCalls := fun k hk hle => ?_ }
  · obtain hfull | hroom : s.sp.toNat = 1 ∨ 3 ≤ s.sp.toNat := by omega
    · exact .inl (BitVec.eq_of_toNat_eq (hnext.trans (by rw [hfull]; rfl)))
    · exact .inr (by rw [State.setSp_sp, hnext, Config.memSize]; omega)
  · obtain hle' | rfl := Nat.le_or_eq_of_le_succ (hle.trans_eq hdepth)
    · rw [hbelow k hle']; exact h.entriesAreCalls k hk hle'
    · rw [htop]; exact hpc

/-! ## What an effect, a step and a transaction keep -/

/-- The cells of a DRW are cells of the framebuffer: wherever one is placed, it is below 2048 (R181, R184). -/
theorem lt_of_placedAt {edge : DrawEdge} {col rw c : Nat} (h : placedAt edge col rw c) : c < 2048 := by
  cases edge <;> simp only [placedAt] at h <;> omega

/-- The cells of a DRW are distinct and on the framebuffer (R181). -/
theorem State.nodup_and_lt_of_drawCells {x y : Reg} {n : Fin 16} {cells : List Nat} (h : s.drawCells x y n = .ok cells) :
    cells.Nodup ∧ ∀ c ∈ cells, c < 2048 := by
  obtain ⟨-, herr⟩ | ⟨-, -, -, herr⟩ | ⟨-, -, cells', hok, hnodup, hcovers⟩ := s.drawCells_cases x y n
  · cases h.symm.trans herr
  · cases h.symm.trans herr
  · cases h.symm.trans hok
    refine ⟨hnodup, fun c hc => ?_⟩
    obtain ⟨col, rw, -, hplaced⟩ := (hcovers c).1 hc
    exact lt_of_placedAt hplaced

/-- From an address that is fetched, `pc` advances within what is reachable (D21). -/
theorem toNat_advance_le {pc a : Word} (hpc : pc.toNat < 0x0FFF) (ha : a = pc + 2 ∨ a = pc + 4 ∨ a.toNat ≤ 0x10FE) :
    a.toNat ≤ 0x10FE := by
  obtain rfl | rfl | ha := ha
  · bv_omega
  · bv_omega
  · exact ha

/-- Every entry of a good state's stack is a CALL's address, so a RET goes on within what is reachable (R123). -/
theorem State.Inv.ret_target_le (h : s.Inv) (hne : s.sp ≠ 0x0FFF) :
    (s.mem.readWord ((s.sp + 2).toNat - 1) + 2).toNat ≤ 0x10FE := by
  obtain ⟨hdepth, haddr⟩ := h.depth_pop hne (s.setSp_sp (s.sp + 2))
  have hcall : (s.mem.readWord ((s.sp + 2).toNat - 1)).toNat < 0x0FFF := by
    rw [haddr]
    exact h.entriesAreCalls s.depth (by omega) le_rfl
  exact toNat_advance_le hcall (.inl rfl)

/-- An effect of an instruction that is fetched keeps the invariant. -/
theorem State.Inv.apply (h : s.Inv) (hrun : s.running) {i : Instr} {e : Effect} (he : s.MayHave i e) :
    (e.apply s).Inv := by
  obtain ⟨hfault, hwait, hpc⟩ := hrun
  have hadvance : (s.pc + 2).toNat ≤ 0x10FE := toNat_advance_le hpc (.inl rfl)
  have hnext {t : State} (ht : t.Inv) (heq : t.pc = s.pc) : (t.advance 2).Inv :=
    ht.setPc (by rw [heq]; exact hadvance)
  cases he with
  | raise i f => exact h.setFault hwait f
  | jump i ha => exact h.setPc (toNat_advance_le hpc ha)
  | write x b => exact hnext (h.setReg x b) rfl
  | arith x r16 => exact hnext ((h.setReg x _).setReg flagReg _) rfl
  | rnd x kk b => exact hnext (h.rndSampled.setReg x b) s.rndSampled_pc
  | ldI nnn v => exact hnext (h.setI v) rfl
  | addI x v => exact hnext (h.setI v) rfl
  | cls => exact hnext h.setWork_nil (s.setWork_pc _)
  | drw hok =>
    obtain ⟨-, hcells⟩ := State.nodup_and_lt_of_drawCells hok
    exact hnext (h.setWork_toggleCells hcells) (s.setWork_pc _)
  | swap => exact hnext h.swapRoles rfl
  | waitkey x => exact (hnext h rfl).setWait hfault (some x)
  | ret hne _ hhi => exact (h.pop hne hhi).setPc (h.ret_target_le hne)
  | call nnn hlo hhi => exact (h.push hlo hhi hpc).setPc (toNat_jump_targets_le 0 nnn).1

/-- A state whose step is not idle and whose `pc` is before the last address is running (R100). -/
theorem State.running_of_idle_eq_false (hidle : s.idle = false) (hpc : s.pc.toNat < 0x0FFF) : s.running := by
  have hnot : ¬(s.fault ≠ none ∨ s.wait ≠ none ∨ 0x1000 ≤ s.pc.toNat) := by
    rw [← State.idle_iff_ne_none, hidle]; exact Bool.false_ne_true
  push Not at hnot
  obtain ⟨hfault, hwait, -⟩ := hnot
  exact ⟨hfault, hwait, hpc⟩

/-- A step does nothing, or raises FetchBounds, or is an effect on a running state; the effect of an undefined encoding is
one that any instruction may have (R100, R106). -/
theorem exists_effect_of_step {t : State} (h : step s = .next t) :
    t = s ∨ (s.wait = none ∧ t = s.setFault .fetchBounds) ∨
      (s.running ∧ ∃ i e, s.MayHave i e ∧ t = e.apply s) := by
  obtain ⟨-, hstep⟩ | ⟨hidle, hpc, hstep⟩ | ⟨hidle, hpc, hcases⟩ := step_cases s
  · exact .inl (Host.Outcome.next.inj (h.symm.trans hstep))
  · refine .inr (.inl ⟨?_, Host.Outcome.next.inj (h.symm.trans hstep)⟩)
    by_contra hwait
    cases hidle.symm.trans (s.idle_iff_ne_none.2 (.inr (.inl hwait)))
  · refine .inr (.inr ⟨State.running_of_idle_eq_false hidle hpc, ?_⟩)
    obtain ⟨i, -, hstep⟩ | ⟨-, -, hstep⟩ := hcases
    · exact ⟨i, exists_effect_of_exec (hstep.symm.trans h)⟩
    · obtain ⟨-, hundef⟩ | ⟨-, hundef⟩ := execUndefined_cases s
      · exact ⟨.nop0 0, _, .raise _ .illegalInstruction, Host.Outcome.next.inj (h.symm.trans (hstep.trans hundef))⟩
      · exact ⟨.nop0 0, _, .jump _ (.inl rfl), Host.Outcome.next.inj (h.symm.trans (hstep.trans hundef))⟩

/-- A step keeps the invariant. -/
theorem State.Inv.step (h : s.Inv) {t : State} (hstep : Machine.step s = .next t) : t.Inv := by
  obtain rfl | ⟨hwait, rfl⟩ | ⟨hrun, i, e, he, rfl⟩ := exists_effect_of_step hstep
  · exact h
  · exact h.setFault hwait .fetchBounds
  · exact h.apply hrun he

/-- After reset nothing is on the stack (R240). -/
theorem State.reset_depth : State.reset.depth = 0 := by decide

/-- The reset state is a good one. -/
theorem State.reset_inv : State.reset.Inv where
  memCanonical := ⟨.nil, by simp [State.reset]⟩
  memInRange := by simp [State.reset]
  fbCanonical b := by rw [State.reset_fb]; exact ⟨.nil, by simp⟩
  fbInRange b := by rw [State.reset_fb]; simp
  fbPixels b c := by rw [State.reset_fb]; exact .inl rfl
  pointerMasked := by decide
  spOnEntry := by decide
  pcReachable := by decide
  entriesAreCalls k hlo hhi := by rw [State.reset_depth] at hhi; omega
  notBlockedAndFaulted := .inl rfl
  flagBitsDistinct := by decide

/-- The state each transaction makes where it is answered at all: a key number is below 16, an image fits (R107). -/
inductive State.TransactsTo (s : State) : Transaction → State → Prop where
  | reset (image : List Byte) : image.length ≤ 4096 → s.TransactsTo (.reset image) { State.reset with
      mem := Memory.load 0 image, params := s.params, rndPending := s.rndPending, rndCount := s.rndCount }
  | step {t : State} : Machine.step s = .next t → s.TransactsTo .step t
  | rnd (b : Byte) : s.TransactsTo (.rnd b) (s.supplyRnd b)
  | setKey (k : Fin 16) (b : Bool) : s.TransactsTo (.setKey k.val b) (s.setKeyBit k b)
  | dropped (k : Nat) : s.wait = none → s.TransactsTo (.receiveInput k) s
  | delivered (k : Nat) {r : Reg} : s.wait = some r →
      s.TransactsTo (.receiveInput k) ((s.setReg r (BitVec.ofNat 8 k)).setWait none)

/-- Everything an answered transaction can do. -/
theorem transactsTo_of_transact {t : State} {tr : Transaction} (h : transact tr s = .next t) : s.TransactsTo tr t := by
  cases tr with
  | reset image =>
    have hreset : s.resetImage image = .next t := h
    obtain ⟨hfits, hnext⟩ | ⟨-, hrefused⟩ := s.resetImage_cases image
    · cases hnext.symm.trans hreset; exact .reset image hfits
    · cases hrefused.symm.trans hreset
  | step => exact .step h
  | rnd b => cases h; exact .rnd b
  | setKey k b =>
    have hkey : s.setKey k b = .next t := h
    obtain ⟨hk, hnext⟩ | ⟨-, hrefused⟩ := s.setKey_cases k b
    · cases hnext.symm.trans hkey; exact .setKey ⟨k, hk⟩ b
    · cases hrefused.symm.trans hkey
  | receiveInput k =>
    have hinput : s.receiveInput k = .next t := h
    obtain ⟨-, hwait, hnext⟩ | ⟨-, r, hwait, hnext⟩ | ⟨-, hrefused⟩ := s.receiveInput_cases k
    · cases hnext.symm.trans hinput; exact .dropped k hwait
    · cases hnext.symm.trans hinput; exact .delivered k hwait
    · cases hrefused.symm.trans hinput

/-- A reset makes a good state of the image, under the machine's own parameters (R240). -/
theorem State.Inv.reset_load {image : List Byte} (hfits : image.length ≤ 4096) {p : Params} (hp : p.wf)
    (pending : List Byte) (count : Nat) :
    State.Inv { State.reset with
      mem := Memory.load 0 image, params := p, rndPending := pending, rndCount := count } :=
  { State.reset_inv with
    memCanonical := Memory.load_wf image 0
    memInRange := Memory.load_within image 0 _ (by rw [Nat.zero_add]; exact hfits)
    entriesAreCalls := fun k hlo hhi => by
      have hdeep : k ≤ 0 := State.reset_depth ▸ hhi
      omega
    flagBitsDistinct := hp }

/-- A transaction that is answered keeps the invariant; a delivery ends the wait (R205). -/
theorem State.Inv.transact (h : s.Inv) {t : State} {tr : Transaction} (htr : Machine.transact tr s = .next t) : t.Inv := by
  cases transactsTo_of_transact htr with
  | reset image hfits => exact .reset_load hfits h.flagBitsDistinct _ _
  | step hstep => exact h.step hstep
  | rnd b => exact h.supplyRnd b
  | setKey k b => exact h.setKeyBit k b
  | dropped => exact h
  | @delivered k r => exact { h.setReg r (BitVec.ofNat 8 k) with notBlockedAndFaulted := .inl rfl }

end

/-- What each transaction of a sequence keeps, the sequence keeps. -/
theorem transactAll_induction {P : State → Prop} {ts : List Transaction}
    (hkeep : ∀ tr ∈ ts, ∀ s t, P s → transact tr s = .next t → P t) {s t : State} (hs : P s)
    (h : transactAll ts s = .next t) : P t := by
  induction ts generalizing s with
  | nil => cases h; exact hs
  | cons tr ts ih =>
    rw [transactAll] at h
    cases hu : transact tr s with
    | next u =>
      rw [hu] at h
      exact ih (fun tr' htr' => hkeep tr' (List.mem_cons_of_mem tr htr')) (hkeep tr List.mem_cons_self s u hs hu) h
    | fault f => rw [hu] at h; cases h
    | refused r => rw [hu] at h; cases h

/-! ## The settled statements -/

/-- Settles O17: with no entry, no listed cell and no fault, each part of the invariant is a fact about the reset values. -/
theorem resetMeetsInvariant : Obligations.ResetMeetsInvariant := State.reset_inv

/-- Settles O18: a step does nothing, raises a fault or has an effect on a running state, and each keeps the invariant. -/
theorem stepKeepsInvariant : Obligations.StepKeepsInvariant := fun _ _ hs hstep => hs.step hstep

/-- Settles O19: every transaction keeps the invariant, so a sequence of them does. -/
theorem transactionsKeepInvariant : Obligations.TransactionsKeepInvariant :=
  fun _ _ _ => transactAll_induction fun _ _ _ _ hs htr => hs.transact htr

/-- Settles O45: the cells are the places of the sprite's bits. -/
theorem drwCellsAreDistinctAndOnScreen : Obligations.DrwCellsAreDistinctAndOnScreen :=
  fun _ _ _ _ _ => State.nodup_and_lt_of_drawCells

end Sys2Proof.Machine
end

section
/-! Subroutines (spec/20_memory.md R55 and R56, spec/41_control.md R123 and R125): a RET returns after the CALL whose entry it
finds, and an entry on the stack stays what it is for as long as it is there; the settled statements about them. -/

namespace Sys2Proof.Machine

/-! ## One call and one return -/

/-- A RET at `sp` two below a CALL's finds the address the CALL pushed and goes on after it, with the CALL's `sp` (R123). -/
theorem exec_ret_of_readWord_eq {u : State} {sp pc : Word} (hlo : 1 ≤ sp.toNat) (hhi : sp.toNat < 4096)
    (hsp : u.sp = sp - 2) (hentry : u.mem.readWord (sp.toNat - 1) = pc) :
    ∃ v, exec .ret u = .next v ∧ v.pc = pc + 2 ∧ v.sp = sp := by
  have hback : u.sp + 2 = sp := by rw [hsp, BitVec.sub_add_cancel]
  have hne : u.sp ≠ 0x0FFF := by
    intro heq
    rw [heq] at hback
    rw [← hback] at hhi
    exact absurd hhi (by decide)
  obtain ⟨-, -, -, hexec⟩ | ⟨hout, -⟩ := exec_ret_cases u
  · rw [hback, hentry] at hexec
    exact ⟨_, hexec, rfl, rfl⟩
  · rw [hback] at hout
    exact absurd (hout.resolve_left hne) (by omega)

/-- The top entry of a good state's stack that was a good state's CALL: RET returns after that CALL. -/
theorem State.Inv.exec_ret_of_entry {s u : State} (hs : s.Inv) (hu : u.Inv) (hdepth : u.depth = s.depth + 1)
    (hentry : u.entry (s.depth + 1) = s.pc) : ∃ v, exec .ret u = .next v ∧ v.pc = s.pc + 2 ∧ v.sp = s.sp := by
  obtain ⟨hle, hsp⟩ := hs.sp_toNat
  obtain ⟨hle', hsp'⟩ := hu.sp_toNat
  have hlo : 1 ≤ s.sp.toNat := by omega
  have hhi : s.sp.toNat < 4096 := by omega
  have haddr : s.sp.toNat - 1 = 0x1000 - 2 * (s.depth + 1) := by omega
  refine exec_ret_of_readWord_eq hlo hhi (by bv_omega) ?_
  rw [haddr]
  exact hentry

/-! ## Entries stay -/

/-- A step from a good state changes no entry that is on the stack before and after it (R123). -/
theorem State.Inv.entry_step {s t : State} (h : s.Inv) (hstep : Machine.step s = .next t) {k : Nat} (hk : k ≤ s.depth) :
    t.entry k = s.entry k := by
  obtain rfl | ⟨-, rfl⟩ | ⟨-, i, e, he, rfl⟩ := exists_effect_of_step hstep
  · rfl
  · rfl
  · obtain hmem | ⟨nnn, -, rfl, hlo, hhi⟩ := he.apply_mem
    · rw [State.entry, hmem, State.entry]
    · obtain ⟨-, hbelow⟩ := h.entry_push hlo hhi (t := (Effect.call (addrOf nnn)).apply s) rfl rfl
      exact hbelow k hk

/-- A run one step longer is the run and then a step. -/
theorem core_run_succ_last {k : Nat} {s t : State} (h : Sys2Proof.core.run k s = .next t) :
    Sys2Proof.core.run (k + 1) s = Machine.step t := by
  induction k generalizing s with
  | zero =>
    cases h
    obtain ⟨u, hu⟩ := exists_step_eq_next t
    exact (core_run_succ 0 t u hu).trans hu.symm
  | succ k ih =>
    obtain ⟨u, hu⟩ := exists_step_eq_next s
    rw [core_run_succ (k + 1) s u hu]
    exact ih ((core_run_succ k s u hu).symm.trans h)

/-- Through a run in which it stays on the stack, an entry of a good state stays what it is, and the state stays good
(R123). -/
theorem State.Inv.entry_run {s : State} (h : s.Inv) {n k : Nat}
    (hlive : ∀ j, j ≤ n → ∃ u, Sys2Proof.core.run j s = .next u ∧ k ≤ u.depth) {t : State}
    (hrun : Sys2Proof.core.run n s = .next t) : t.Inv ∧ t.entry k = s.entry k := by
  induction n generalizing t with
  | zero => cases hrun; exact ⟨h, rfl⟩
  | succ n ih =>
    obtain ⟨u, hu, hk⟩ := hlive n (Nat.le_succ n)
    obtain ⟨hinv, hentry⟩ := ih (fun j hj => hlive j (Nat.le_succ_of_le hj)) hu
    have hstep : Machine.step u = .next t := (core_run_succ_last hu).symm.trans hrun
    exact ⟨hinv.step hstep, (hinv.entry_step hstep hk).trans hentry⟩

/-! ## The settled statements -/

/-- Settles O28: the two entry bytes are the word the CALL pushed, and RET finds it at the CALL's `sp`. -/
theorem callThenRetReturnsAfterTheCall : Obligations.CallThenRetReturnsAfterTheCall := by
  intro s t u nnn hlo hhi hcall hsp hhigh hlow
  obtain ⟨-, -, hexec⟩ | ⟨hout, -⟩ := exec_call_cases nnn s
  · cases hexec.symm.trans hcall
    refine exec_ret_of_readWord_eq hlo (by omega) hsp ?_
    rw [Memory.readWord, Nat.sub_add_cancel hlo, hhigh, hlow, ← Nat.sub_add_cancel hlo, Nat.add_sub_cancel]
    exact Memory.readWord_writeWord_same s.mem (s.sp.toNat - 1) s.pc
  · omega

/-- Settles O29: only a CALL's push writes memory, above every entry that stays. -/
theorem liveStackEntriesSurviveEveryStep : Obligations.LiveStackEntriesSurviveEveryStep :=
  fun _ _ _ hinv hstep _ hbefore _ => hinv.entry_step hstep hbefore

/-- Settles O30: the CALL makes its own address the top entry, the run keeps it, and RET finds it. -/
theorem retReturnsToItsMatchingCall : Obligations.RetReturnsToItsMatchingCall := by
  intro n s s1 s2 nnn hinv hpc hcall hlive hrun hdepth
  obtain ⟨hlo, hhi, hexec⟩ | ⟨-, hexec⟩ := exec_call_cases nnn s <;> cases hexec.symm.trans hcall
  case inl =>
    obtain ⟨htop, -⟩ := hinv.entry_push hlo hhi
      (t := ((s.setMem (s.mem.writeWord (s.sp.toNat - 1) s.pc)).setSp (s.sp - 2)).setPc (addrOf nnn)) rfl rfl
    have hinv1 := (hinv.push hlo hhi hpc).setPc (toNat_jump_targets_le 0 nnn).1
    obtain ⟨hinv2, hentry⟩ := hinv1.entry_run hlive hrun
    exact hinv.exec_ret_of_entry hinv2 hdepth (hentry.trans htop)
  case inr =>
    obtain ⟨u, hu, hdeeper⟩ := hlive 0 n.zero_le
    cases hu
    exact absurd hdeeper (lt_irrefl _)

end Sys2Proof.Machine
end

section
/-! Two instructions in a row: rotates that undo each other, random samples used one by one, a sprite drawn twice
(spec/43_alu.md R159 to R162, spec/44_pointer_draw.md R181); and the flags of the arithmetic instructions under the default
parameters (spec/43_alu.md R157, R158, R160). The settled statements about them. -/

namespace Sys2Proof.Machine

/-! ## Rotates -/

/-- A rotation to the right by one and then to the left by one puts every bit back (R161). -/
theorem rotateLeft_rotateRight_one (v : Byte) : (v.rotateRight 1).rotateLeft 1 = v := by
  refine BitVec.eq_of_getLsbD_eq fun j hj => ?_
  rw [getLsbD_rotateLeft_one _ j hj, getLsbD_rotateRight_one _ _ (Nat.mod_lt _ (by decide))]
  congr 1
  omega

/-- A rotation to the left by one and then to the right by one puts every bit back (R161). -/
theorem rotateRight_rotateLeft_one (v : Byte) : (v.rotateLeft 1).rotateRight 1 = v := by
  refine BitVec.eq_of_getLsbD_eq fun j hj => ?_
  rw [getLsbD_rotateRight_one _ j hj, getLsbD_rotateLeft_one _ _ (Nat.mod_lt _ (by decide))]
  congr 1
  omega

/-- Where the registers that may have changed hold what they held, nothing but `pc` has changed. -/
theorem State.onlyRegs.onlyPc {s t : State} {xs : List Reg} (h : s.onlyRegs t xs) (hxs : ∀ r ∈ xs, t.reg r = s.reg r) :
    s.onlyPc t := by
  obtain ⟨⟨hregs, hrest⟩, hdisplay⟩ := h
  refine ⟨⟨fun r _ => ?_, hrest⟩, hdisplay⟩
  obtain hr | hr := Decidable.em (r ∈ xs)
  · exact hxs r hr
  · exact hregs r hr

/-- Two instructions in a row that write Vx alone, the second one giving back the byte Vx held first: only `pc` has moved. -/
theorem onlyPc_of_exec_setReg_twice {s t u : State} {i j : Instr} {x : Reg} {b : Byte}
    (hi : exec i s = .next ((s.setReg x b).advance 2)) (hj : exec j t = .next ((t.setReg x (s.reg x)).advance 2))
    (ht : exec i s = .next t) (hu : exec j t = .next u) : s.onlyPc u ∧ u.pc = s.pc + 4 := by
  cases hi.symm.trans ht
  cases hj.symm.trans hu
  have honly := ((s.onlyRegs_setReg x b).advance 2).trans ((State.onlyRegs_setReg _ x (s.reg x)).advance 2)
  refine ⟨honly.onlyPc fun r hr => ?_, BitVec.add_assoc s.pc 2 2⟩
  obtain rfl : r = x := by simpa using hr
  exact State.setReg_reg_same _ r _

/-- Settles O39: each rotation is a write of Vx, and the two rotations are inverse to each other. -/
theorem rotatesUndoEachOther : Obligations.RotatesUndoEachOther := by
  refine fun s t u x y z => ⟨fun ht hu => ?rorRol, fun ht hu => ?rolRor⟩
  case rorRol =>
    refine onlyPc_of_exec_setReg_twice (exec_ror x y s) ?_ ht hu
    have hx : t.reg x = (s.reg x).rotateRight 1 := by
      cases (exec_ror x y s).symm.trans ht
      exact s.setReg_reg_same x _
    rw [exec_rol, hx, rotateLeft_rotateRight_one]
  case rolRor =>
    refine onlyPc_of_exec_setReg_twice (exec_rol x y s) ?_ ht hu
    have hx : t.reg x = (s.reg x).rotateLeft 1 := by
      cases (exec_rol x y s).symm.trans ht
      exact s.setReg_reg_same x _
    rw [exec_ror, hx, rotateRight_rotateLeft_one]

/-! ## Random samples -/

/-- A supplied byte is the one sampled, whatever byte it is (log entry 3). -/
theorem State.rndByte_of_cons {s : State} {b : Byte} {rest : List Byte} (h : s.rndPending = b :: rest) : s.rndByte = b := by
  simp [State.rndByte, h]

/-- With no byte supplied the free source's next is sampled (log entry 3). -/
theorem State.rndByte_of_nil {s : State} (h : s.rndPending = []) : s.rndByte = Config.freeByte s.rndCount := by
  simp [State.rndByte, h]

/-- What a RND writes, and the supply it leaves (R162). -/
theorem exec_rnd_eq_next {s t : State} {x : Reg} {kk : Byte} (h : exec (.rnd x kk) s = .next t) :
    t.reg x = s.rndByte &&& kk ∧ t.rndPending = s.rndSampled.rndPending ∧ t.rndCount = s.rndSampled.rndCount := by
  cases (exec_rnd x kk s).symm.trans h
  exact ⟨State.setReg_reg_same _ x _, rfl, rfl⟩

/-- A RND with a byte supplied uses that byte up (log entry 3). -/
theorem exec_rnd_of_cons {s t : State} {x : Reg} {kk b : Byte} {rest : List Byte} (h : exec (.rnd x kk) s = .next t)
    (hs : s.rndPending = b :: rest) : t.reg x = b &&& kk ∧ t.rndPending = rest ∧ t.rndCount = s.rndCount := by
  obtain ⟨hreg, hpending, hcount⟩ := exec_rnd_eq_next h
  obtain ⟨hrest, hkept⟩ := State.rndSampled_of_cons hs
  exact ⟨by rw [hreg, State.rndByte_of_cons hs], hpending.trans hrest, hcount.trans hkept⟩

/-- A RND with no byte supplied uses up one number of the free source (log entry 3). -/
theorem exec_rnd_of_nil {s t : State} {x : Reg} {kk : Byte} (h : exec (.rnd x kk) s = .next t) (hs : s.rndPending = []) :
    t.reg x = Config.freeByte s.rndCount &&& kk ∧ t.rndPending = [] ∧ t.rndCount = s.rndCount + 1 := by
  obtain ⟨hreg, hpending, hcount⟩ := exec_rnd_eq_next h
  obtain ⟨hrest, hdrawn⟩ := State.rndSampled_of_nil hs
  exact ⟨by rw [hreg, State.rndByte_of_nil hs], hpending.trans hrest, hcount.trans hdrawn⟩

/-- Settles O41: the second RND starts from the supply the first one left. -/
theorem rndUsesEachSampleOnce : Obligations.RndUsesEachSampleOnce := by
  refine fun s t u x y k1 k2 ht hu => ⟨fun b1 b2 rest hs => ?supplied, fun hs => ?free⟩
  case supplied =>
    obtain ⟨hx, hpending, hcount⟩ := exec_rnd_of_cons ht hs
    obtain ⟨hy, hpending', hcount'⟩ := exec_rnd_of_cons hu hpending
    exact ⟨hx, hy, hpending', hcount'.trans hcount⟩
  case free =>
    obtain ⟨hx, hpending, hcount⟩ := exec_rnd_of_nil ht hs
    obtain ⟨hy, hpending', hcount'⟩ := exec_rnd_of_nil hu hpending
    rw [hcount] at hy hcount'
    exact ⟨hx, hy, hcount', hpending'⟩

/-- Settles O40: RND writes the sampled byte under the mask, after a sampling that leaves the rest alone. -/
theorem rndMasksTheSampledByte : Obligations.RndMasksTheSampledByte := by
  refine fun x kk => ⟨decodeWord_formatXK_rnd x kk, fun s => ⟨?_, fun _ _ => State.rndByte_of_cons⟩⟩
  refine ⟨_, exec_rnd x kk s, State.setReg_reg_same _ x _, congrArg (· + 2) s.rndSampled_pc, fun r hr => ?_,
    s.rndSampled_I, s.rndSampled_sp, fun a => congrArg (·.read a) s.rndSampled_mem,
    ⟨s.rndSampled_fbSel, fun b c => congrArg (·.read c) (s.rndSampled_fb b)⟩,
    s.rndSampled_keys, s.rndSampled_wait, s.rndSampled_fault, s.rndSampled_params⟩
  exact (State.setReg_reg_ne _ x r _ (List.ne_of_not_mem_cons hr)).trans (s.rndSampled_reg r)

/-! ## A sprite drawn twice -/

/-- Toggling distinct cells twice puts every cell back (D26). -/
theorem toggleCells_toggleCells_read {cells : List Nat} (hd : cells.Nodup) (fb : Memory) (c : Nat) :
    (toggleCells (toggleCells fb cells) cells).read c = fb.read c := by
  rw [toggleCells_read cells hd, toggleCells_read cells hd]
  split
  case isTrue => rw [BitVec.xor_assoc, BitVec.xor_self, BitVec.xor_zero]
  case isFalse => rfl

/-- Settles O44: a DRW changes nothing that the next one's set `T` depends on, so the same distinct cells are toggled twice;
a DRW that faults changes no cell. -/
theorem drawingTwiceRestores : Obligations.DrawingTwiceRestores := by
  intro s t u x y n ht hu
  cases hcells : s.drawCells x y n with
  | error f =>
    cases (exec_drw_of_error hcells).symm.trans ht
    have hcells' : (s.setFault f).drawCells x y n = .error f := hcells
    cases (exec_drw_of_error hcells').symm.trans hu
    exact ⟨rfl, fun _ _ => rfl⟩
  | ok cells =>
    cases (exec_drw_of_ok hcells).symm.trans ht
    have hcells' : ((s.setWork (toggleCells s.work cells)).advance 2).drawCells x y n = .ok cells :=
      (State.drawCells_congr n (s.setWork_reg _ x) (s.setWork_reg _ y) (s.setWork_I _) (s.setWork_mem _)
        (s.setWork_params _)).trans hcells
    cases (exec_drw_of_ok hcells').symm.trans hu
    obtain ⟨hnodup, -⟩ := State.nodup_and_lt_of_drawCells hcells
    refine ⟨by simp, fun b c => ?_⟩
    rw [State.advance_fb, State.setWork_fb, State.advance_fbSel, State.setWork_fbSel]
    split
    case isTrue hb =>
      rw [State.advance_work, State.setWork_work, toggleCells_toggleCells_read hnodup, hb, State.work]
    case isFalse hb => rw [State.advance_fb, s.setWork_fb_ne _ b hb]

/-! ## Flags under the default parameters -/

/-- Under the defaults and with x other than 15: the low byte goes to Vx, C is a result of 256 or more, S one above 0x7F, Z a
low byte of 0, and bits 3 to 7 of V15 stay (R152). -/
theorem State.finishArith_default {s : State} (hparams : s.params = Params.default) {x : Reg} (hx : x ≠ flagReg)
    (r16 : Word) :
    ((s.finishArith x r16).reg x).toNat = r16.toNat % 256 ∧
    (((s.finishArith x r16).reg flagReg).getLsbD 0 = true ↔ 256 ≤ r16.toNat) ∧
    (((s.finishArith x r16).reg flagReg).getLsbD 1 = true ↔ 0x7F < r16.toNat) ∧
    (((s.finishArith x r16).reg flagReg).getLsbD 2 = true ↔ r16.toNat % 256 = 0) ∧
    ∀ j, 3 ≤ j → j < 8 → ((s.finishArith x r16).reg flagReg).getLsbD j = (s.reg flagReg).getLsbD j := by
  have hflags : (s.finishArith x r16).reg flagReg = flagByte Params.default (s.reg flagReg) r16 := by
    rw [State.finishArith_eq, State.advance_reg, State.setReg_reg_same, s.setReg_reg_ne x flagReg _ hx.symm, hparams]
  rw [hflags, s.finishArith_reg_of_ne x r16 hx]
  have hwf : Params.default.wf := by decide
  refine ⟨toNat_lowByte r16, ?carry, ?sign, ?zero, fun j hlo hhi => ?others⟩
  case carry => exact (flagByte_getLsbD_flagBitC hwf _ r16) ▸ carryOf_highByteNonzero_iff r16
  case sign => exact (flagByte_getLsbD_flagBitS hwf _ r16) ▸ signOf_gt7F16bit_iff r16
  case zero => exact (flagByte_getLsbD_flagBitZ Params.default _ r16) ▸ zeroOf_iff r16
  case others =>
    have hZ : j ≠ Params.default.flagBitZ.val := Nat.ne_of_gt hlo
    have hS : j ≠ Params.default.flagBitS.val := Nat.ne_of_gt (Nat.lt_of_succ_lt hlo)
    have hC : j ≠ Params.default.flagBitC.val := Nat.ne_of_gt (Nat.zero_lt_of_lt hlo)
    rw [flagByte_getLsbD _ _ _ j hhi, if_neg hZ, if_neg hS, if_neg hC]

/-- The conditions on a difference of bytes in 16 bits: it is 256 or more exactly on a borrow, and its low byte is the
difference modulo 256, which is 0 for equal bytes alone (R158, R160). -/
theorem zext16_sub_zext16_conditions (a b : Byte) :
    (zext16 a - zext16 b).toNat % 256 = (256 + a.toNat - b.toNat) % 256 ∧
    (256 ≤ (zext16 a - zext16 b).toNat ↔ a.toNat < b.toNat) ∧
    (0x7F < (zext16 a - zext16 b).toNat ↔ a.toNat < b.toNat ∨ 0x7F < a.toNat - b.toNat) ∧
    ((zext16 a - zext16 b).toNat % 256 = 0 ↔ a = b) := by
  have ha : a.toNat < 2 ^ 8 := a.isLt
  have hb : b.toNat < 2 ^ 8 := b.isLt
  rw [toNat_zext16_sub_zext16, ← BitVec.toNat_inj]
  omega

/-- Settles O37: the flags of the 16-bit result are those conditions on the operands. -/
theorem defaultFlagsAreCarryBorrowSignZero : Obligations.DefaultFlagsAreCarryBorrowSignZero := by
  intro s t i x y hparams hx hexec
  have hflags := State.finishArith_default hparams hx
  refine ⟨?add, ?sub, ?rsub, ?others⟩
  case add =>
    rintro rfl
    cases (exec_add x y s).symm.trans hexec
    obtain ⟨hlow, hC, hS, hZ, -⟩ := hflags (zext16 (s.reg x) + zext16 (s.reg y))
    rw [toNat_zext16_add_zext16] at hlow hC hS hZ
    exact ⟨hlow, hC, hS, hZ⟩
  case sub =>
    rintro rfl
    cases (exec_sub x y s).symm.trans hexec
    obtain ⟨hlow, hC, hS, hZ, -⟩ := hflags (zext16 (s.reg x) - zext16 (s.reg y))
    obtain ⟨hdiff, hborrow, hsign, hzero⟩ := zext16_sub_zext16_conditions (s.reg x) (s.reg y)
    exact ⟨hlow.trans hdiff, hC.trans hborrow, hS.trans hsign, hZ.trans hzero⟩
  case rsub =>
    rintro rfl
    cases (exec_rsub x y s).symm.trans hexec
    obtain ⟨hlow, hC, hS, hZ, -⟩ := hflags (zext16 (s.reg y) - zext16 (s.reg x))
    obtain ⟨hdiff, hborrow, hsign, hzero⟩ := zext16_sub_zext16_conditions (s.reg y) (s.reg x)
    exact ⟨hlow.trans hdiff, hC.trans hborrow, hS.trans hsign, hZ.trans hzero⟩
  case others =>
    have hkept (r16 : Word) : ∀ j, 3 ≤ j → j < 8 →
        ((s.finishArith x r16).reg flagReg).getLsbD j = (s.reg flagReg).getLsbD j := by
      obtain ⟨-, -, -, -, hothers⟩ := hflags r16
      exact hothers
    rintro (rfl | rfl | rfl)
    · cases (exec_add x y s).symm.trans hexec; exact hkept _
    · cases (exec_sub x y s).symm.trans hexec; exact hkept _
    · cases (exec_rsub x y s).symm.trans hexec; exact hkept _

end Sys2Proof.Machine
end

section
/-! Runs and host transactions: the slide through zeroed memory (spec/41_control.md R120, spec/70_reset_and_hazards.md R241),
the machine that stays put while it is blocked or faulted (spec/60_exceptions.md R220, R236), and single transactions and
steps (spec/10_state.md, spec/40_fetch_decode.md R105, spec/45_keys_special.md R206); the settled statements about them. -/

namespace Sys2Proof.Machine

/-! ## The slide through zeroed memory -/

/-- The zero word is a no-operation (R120). -/
theorem decodeWord_zero : decodeWord 0 = .ok (.nop0 0) := by decide

/-- A step over two zero bytes only advances `pc` (R120). -/
theorem step_of_zeroed {s : State} (hs : s.running)
    (hzero : ∀ a, s.pc.toNat ≤ a → a < s.pc.toNat + 2 → s.mem.read a = 0) :
    step s = .next (s.advance 2) := by
  have hword : s.mem.readWord s.pc.toNat = 0 := by
    rw [Memory.readWord, hzero _ le_rfl (by omega), hzero (s.pc.toNat + 1) (by omega) (by omega)]
    rfl
  rw [step_of_decodeWord_ok s hs (.nop0 0) (by rw [hword, decodeWord_zero])]
  exact exec_noOperation s _ (.inl ⟨0, rfl⟩)

/-- Advancing by nothing is staying. -/
theorem State.advance_zero (s : State) : s.advance 0 = s := by
  rw [State.advance, show s.pc + 0 = s.pc from BitVec.add_zero s.pc]; rfl

/-- Two advances are one. -/
theorem State.advance_advance (s : State) (a b : Word) : (s.advance a).advance b = s.advance (a + b) := by
  rw [State.advance, State.advance_pc, BitVec.add_assoc]; rfl

/-- `k` steps through zeroed memory advance `pc` by 2k (R120). -/
theorem core_run_of_zeroed (k : Nat) {s : State} (hfault : s.fault = none) (hwait : s.wait = none)
    (hroom : s.pc.toNat + 2 * k ≤ 4096) (hzero : ∀ a, s.pc.toNat ≤ a → a < s.pc.toNat + 2 * k → s.mem.read a = 0) :
    Sys2Proof.core.run k s = .next (s.advance (BitVec.ofNat 16 (2 * k))) := by
  induction k generalizing s with
  | zero => exact congrArg Host.Outcome.next s.advance_zero.symm
  | succ k ih =>
    have hstep : step s = .next (s.advance 2) :=
      step_of_zeroed ⟨hfault, hwait, by omega⟩ fun a hlo hhi => hzero a hlo (by omega)
    have hpc : (s.advance 2).pc.toNat = s.pc.toNat + 2 := by
      rw [State.advance_pc, BitVec.toNat_add_of_lt (by simp; omega)]; rfl
    have hrest := ih (s := s.advance 2) hfault hwait (by omega) fun a hlo hhi => hzero a (by omega) (by omega)
    have hsum : 2 + BitVec.ofNat 16 (2 * k) = BitVec.ofNat 16 (2 * (k + 1)) := by
      rw [Nat.mul_succ, Nat.add_comm, BitVec.ofNat_add]; rfl
    rw [core_run_succ k s _ hstep, hrest, State.advance_advance, hsum]

/-- Settles O8: the run from reset is the general one from address 0, whose whole memory holds 0. -/
theorem zeroedMemoryIsSlidThrough : Obligations.ZeroedMemoryIsSlidThrough := by
  refine ⟨fun k s => core_run_of_zeroed k, _, core_run_of_zeroed 2048 rfl rfl (by decide) fun a _ _ => rfl, ?_, rfl⟩
  decide

/-! ## A machine that stays put -/

/-- All of the machine but what is the host's: the keys, the random supply and the parameters. -/
def State.sameMachine (s t : State) : Prop :=
  t.V = s.V ∧ t.pc = s.pc ∧ t.I = s.I ∧ t.sp = s.sp ∧ t.mem = s.mem ∧ t.fb0 = s.fb0 ∧ t.fb1 = s.fb1 ∧
    t.fbSel = s.fbSel ∧ t.wait = s.wait ∧ t.fault = s.fault

theorem State.sameMachine_refl (s : State) : s.sameMachine s := ⟨rfl, rfl, rfl, rfl, rfl, rfl, rfl, rfl, rfl, rfl⟩

/-- A machine that is the same is as idle. -/
theorem State.sameMachine.idle_eq {s t : State} (h : s.sameMachine t) : t.idle = s.idle := by
  obtain ⟨-, hpc, -, -, -, -, -, -, hwait, hfault⟩ := h
  rw [Bool.eq_iff_iff, State.idle_iff_ne_none, State.idle_iff_ne_none, hpc, hwait, hfault]

/-- Being the same machine goes on through the next change. -/
theorem State.sameMachine.trans {s t u : State} (h : s.sameMachine t) (h' : t.sameMachine u) : s.sameMachine u := by
  obtain ⟨hV, hpc, hI, hsp, hmem, hfb0, hfb1, hsel, hwait, hfault⟩ := h
  unfold State.sameMachine at h' ⊢
  rwa [hV, hpc, hI, hsp, hmem, hfb0, hfb1, hsel, hwait, hfault] at h'

/-- A transaction from an idle state that is neither a reset nor a delivery to it changes nothing of the machine (R100, R205,
R206). -/
theorem transact_sameMachine_of_idle {s t : State} {tr : Transaction} (hidle : s.idle = true)
    (hreset : ∀ image, tr ≠ .reset image) (hinput : s.wait = none ∨ ∀ k, tr ≠ .receiveInput k)
    (h : transact tr s = .next t) : s.sameMachine t := by
  cases transactsTo_of_transact h with
  | reset image => exact absurd rfl (hreset image)
  | step hstep => cases (step_idle s hidle).symm.trans hstep; exact s.sameMachine_refl
  | rnd | setKey | dropped => exact s.sameMachine_refl
  | delivered k hwait =>
    obtain hnone | hother := hinput
    · cases hnone.symm.trans hwait
    · exact absurd rfl (hother k)

/-- So does a sequence of them: the machine stays idle all along. -/
theorem transactAll_sameMachine_of_idle {s t : State} {ts : List Transaction} (hidle : s.idle = true)
    (hreset : ∀ image, Transaction.reset image ∉ ts) (hinput : s.wait = none ∨ ∀ k, Transaction.receiveInput k ∉ ts)
    (h : transactAll ts s = .next t) : s.sameMachine t := by
  refine transactAll_induction (P := s.sameMachine) (fun tr htr u v hu hv => hu.trans ?_) s.sameMachine_refl h
  obtain ⟨-, -, -, -, -, -, -, -, hwait, -⟩ := id hu
  refine transact_sameMachine_of_idle (hu.idle_eq.trans hidle) (fun image heq => hreset image (heq ▸ htr)) ?_ hv
  rw [hwait]
  exact hinput.imp_right fun hother k heq => hother k (heq ▸ htr)

/-- Settles O10: a fault makes the machine idle, and without a wait no delivery reaches it. -/
theorem faultedMachineStaysPut : Obligations.FaultedMachineStaysPut := by
  intro ts s t f hfault hwait hreset h
  have hidle : s.idle = true := s.idle_iff_ne_none.2 (.inl (by simp [hfault]))
  obtain ⟨hV, hpc, hI, hsp, hmem, hfb0, hfb1, hsel, hwait', hfault'⟩ :=
    transactAll_sameMachine_of_idle hidle hreset (.inl hwait) h
  exact ⟨hfault'.trans hfault, hV, hpc, hI, hsp, hmem, hfb0, hfb1, hsel, hwait'.trans hwait⟩

/-- Settles O51: a wait makes the machine idle, and no delivery comes. -/
theorem blockedMachineWaits : Obligations.BlockedMachineWaits := by
  intro ts s t r hwait hreset hinput h
  have hidle : s.idle = true := s.idle_iff_ne_none.2 (.inr (.inl (by simp [hwait])))
  obtain ⟨hV, hpc, hI, hsp, hmem, hfb0, hfb1, hsel, hwait', hfault'⟩ :=
    transactAll_sameMachine_of_idle hidle hreset (.inr hinput) h
  exact ⟨hwait'.trans hwait, hV, hpc, hI, hsp, hmem, hfb0, hfb1, hsel, hfault'⟩

/-! ## The parameters and the random supply -/

/-- No step changes the parameters (log entry 1). -/
theorem step_params {s t : State} (h : step s = .next t) : t.params = s.params := by
  obtain rfl | ⟨-, rfl⟩ | ⟨-, i, e, -, rfl⟩ := exists_effect_of_step h
  · rfl
  · rfl
  · exact (e.apply_keys_params s).2

/-- No transaction changes the parameters (log entries 1 and 7). -/
theorem transact_params {s t : State} {tr : Transaction} (h : transact tr s = .next t) : t.params = s.params := by
  cases transactsTo_of_transact h with
  | step hstep => exact step_params hstep
  | reset | rnd | setKey | dropped | delivered => rfl

/-- Settles O56: each transaction in turn, and the effects for the random supply. -/
theorem parametersAndSupplyAreTheHosts : Obligations.ParametersAndSupplyAreTheHosts := by
  refine ⟨fun tr s t => transact_params, fun i s t hexec hrnd => ?_⟩
  obtain ⟨e, he, rfl⟩ := exists_effect_of_exec hexec
  exact he.apply_sameRandom.resolve_right fun ⟨x, kk, hi⟩ => hrnd x kk hi

/-! ## Single steps and transactions -/

/-- A word that decodes at the head of a byte sequence decodes. -/
theorem decodeWord_of_decode {hi lo : Byte} {bs rest : List Byte} {i : Instr}
    (h : decode (hi :: lo :: bs) = .ok (i, rest)) : decodeWord (wordOfBytes hi lo) = .ok i := by
  rw [decode] at h
  cases hw : decodeWord (wordOfBytes hi lo) with
  | ok j => rw [hw] at h; cases h; rfl
  | error e => rw [hw] at h; cases h

/-- Settles O4: a running state fetches the two bytes and runs what they decode to. -/
theorem stepRunsTheDecodedInstruction : Obligations.StepRunsTheDecodedInstruction :=
  fun s i _ hrun hdecode => step_of_decodeWord_ok s hrun i (decodeWord_of_decode hdecode)

/-- A word of the table decodes as the word its bits make. -/
theorem decodeWord_of_decodeTableWord {nbits w : Nat} {i : Instr} (h : decodeTableWord nbits w = some i) :
    decodeWord (tableWord nbits w) = .ok i := by
  rw [decodeTableWord, ← List.append_nil (bytesOfWord _), decode_bytesOfWord_append] at h
  cases hw : decodeWord (tableWord nbits w) with
  | ok j => rw [hw] at h; cases h; rfl
  | error e => rw [hw] at h; cases h

/-- The state with a word placed is running, and that word is at its `pc` (log entry 8). -/
theorem State.withFetchWord_running (s : State) (nbits w : Nat) :
    (s.withFetchWord nbits w).running ∧
      (s.withFetchWord nbits w).mem.readWord (s.withFetchWord nbits w).pc.toNat = tableWord nbits w := by
  refine ⟨⟨rfl, rfl, ?_⟩, Memory.readWord_writeWord_same _ _ _⟩
  have hpc : (s.withFetchWord nbits w).pc = if s.pc.toNat + 1 < Config.memSize then s.pc else 0 := rfl
  rw [hpc]
  split
  case isTrue hin => exact Nat.lt_of_succ_lt_succ hin
  case isFalse => decide

/-- Settles O5: the state with the word placed is running, with that word at its `pc`. -/
theorem placedWordRunsNext : Obligations.PlacedWordRunsNext := by
  intro s w i hdecode
  obtain ⟨hrun, hword⟩ := s.withFetchWord_running 16 w
  exact step_of_decodeWord_ok _ hrun i (by rw [hword]; exact decodeWord_of_decodeTableWord hdecode)

/-- Settles O2: an empty image loads nothing, and the values are those of the reset state. -/
theorem resetStateIsEmptyImageReset : Obligations.ResetStateIsEmptyImageReset :=
  ⟨rfl, State.reset_reg, rfl, rfl, rfl, Memory.read_nil, fun b c => congrArg (Memory.read · c) (State.reset_fb b), rfl,
    State.reset_keys_get, rfl, rfl⟩

/-- Settles O25: outside memory a pop underflows. -/
theorem retOutsideMemoryUnderflows : Obligations.RetOutsideMemoryUnderflows := by
  intro s hout
  obtain ⟨-, hlo, hhi, -⟩ | ⟨-, hexec⟩ := exec_ret_cases s
  · omega
  · exact hexec

/-- Settles O49: with a key number `set_key` writes that key alone. -/
theorem setKeyWritesOneKey : Obligations.SetKeyWritesOneKey := by
  intro s k b
  obtain ⟨hlt, hnext⟩ | ⟨hge, -⟩ := s.setKey_cases k.val b
  · exact ⟨_, hnext, s.setKeyBit_get_same k b, fun j hj => by rw [State.setKeyBit_get, if_neg hj], rfl, rfl, rfl,
      fun _ _ => rfl, rfl, rfl, fun _ => rfl, ⟨rfl, fun _ _ => rfl⟩, rfl, rfl, rfl⟩
  · exact absurd k.isLt (Nat.not_lt.2 hge)

/-- Settles O50: both calls check the key number first. -/
theorem callsOutsideTheContractAreRefused : Obligations.CallsOutsideTheContractAreRefused := by
  refine fun s k b hk => ⟨?receive, ?set⟩
  case receive =>
    obtain ⟨hlt, -⟩ | ⟨hlt, -⟩ | ⟨-, hrefused⟩ := s.receiveInput_cases k
    · omega
    · omega
    · exact hrefused
  case set =>
    obtain ⟨hlt, -⟩ | ⟨-, hrefused⟩ := s.setKey_cases k b
    · omega
    · exact hrefused

end Sys2Proof.Machine
end
